-- ==== Sys2Proof/Word.lean ====
section
/-! DEFINITION. The two word widths of the machine (00_scope.md rules R7, R9). -/

namespace Sys2Proof

/-- A byte: the width of every register cell but `pc` and `sp`, of a memory cell and of a console character. -/
abbrev Byte := BitVec 8

/-- A 16-bit value: `pc`, `sp` and every address an instruction forms. -/
abbrev Addr := BitVec 16

end Sys2Proof
end

