-- ==== Sys2Proof/Machine/Alu.lean ====
section
/-! DEFINITION. The 8-bit unsigned operations of the ALU (44_arithmetic.md rules R103, R112; 45_logic.md rule R124). -/

namespace Sys2Proof.Machine

/-- `(a + b) mod 256` (rule R103). -/
def aluAdd (v w : Byte) : Byte := v + w

/-- `(a - b) mod 256` (rule R103). -/
def aluSub (v w : Byte) : Byte := v - w

/-- `(a * b) mod 256`, the low 8 bits of the product (rule R103). -/
def aluMul (v w : Byte) : Byte := v * w

/-- `a div b`, used for `b` not 0 (rule R112). -/
def aluDiv (v w : Byte) : Byte := v.udiv w

/-- `a mod b`, used for `b` not 0 (rule R112). -/
def aluMod (v w : Byte) : Byte := v.umod w

/-- Bitwise and (rule R124). -/
def aluAnd (v w : Byte) : Byte := v &&& w

/-- Bitwise or (rule R124). -/
def aluOr (v w : Byte) : Byte := v ||| w

/-- Bitwise exclusive or (rule R124). -/
def aluXor (v w : Byte) : Byte := v ^^^ w

/-- One's complement, `v ^ 0xFF` (rules R117, R123). -/
def aluNot (v : Byte) : Byte := v ^^^ 0xFF#8

end Sys2Proof.Machine
end

