-- ==== Sys2Proof/Syntax.lean ====
section
/-! DEFINITION. The abstract syntax: the eight registers a selector names and the 32 rows of
spec/opcode_table.json, one constructor each. Fields that no handler reads (30_encoding.md rule R66)
are no part of an instruction; the decoder drops them. -/

namespace Sys2Proof

/-- The eight registers of the selector table, in the order of selectors 0 to 7 (10_state.md rule R14). -/
inductive Reg where
  | a | x | y | spa | pc | flg | b | spb
  deriving DecidableEq, Repr

/-- One constructor per family code (30_encoding.md rule R56), in code order. -/
inductive Instr where
  /-- code 0, unassigned: rule R65 -/
  | invalid
  /-- code 1: rule R76 -/
  | bneImm (addr : Addr)
  /-- code 2: rule R77 -/
  | beqImm (addr : Addr)
  /-- code 3: rule R78 -/
  | jmpImm (addr : Addr)
  /-- code 4: rule R83 -/
  | movImm (rd : Reg) (imm : Byte)
  /-- code 5: rule R87 -/
  | cmpImm (rs : Reg) (imm : Byte)
  /-- code 6: rule R90 -/
  | pokeImm (rs : Reg) (addr : Addr)
  /-- code 7: rule R91 -/
  | peekImm (addr : Addr)
  /-- code 8: rule R95 -/
  | syscall
  /-- code 9: rule R79 -/
  | bneReg
  /-- code 10: rule R80 -/
  | beqReg
  /-- code 11: rule R81 -/
  | jmpReg
  /-- code 12: rule R84 -/
  | movReg (rd rs : Reg)
  /-- code 13: rule R88 -/
  | cmpReg (rs rt : Reg)
  /-- code 14: rule R92 -/
  | pokeReg (rs : Reg)
  /-- code 15: rule R93 -/
  | peekReg
  /-- code 16: rule R104 -/
  | addImm (rs : Reg) (imm : Byte)
  /-- code 17: rule R105 -/
  | subImm (rs : Reg) (imm : Byte)
  /-- code 18: rule R106 -/
  | mulImm (rs : Reg) (imm : Byte)
  /-- code 19: rule R107 -/
  | divImm (rs : Reg) (imm : Byte)
  /-- code 20: rule R115 -/
  | andImm (rs : Reg) (imm : Byte)
  /-- code 21: rule R116 -/
  | orImm (rs : Reg) (imm : Byte)
  /-- code 22: rule R117 -/
  | notImm (rd : Reg) (imm : Byte)
  /-- code 23: rule R118 -/
  | xorImm (rs : Reg) (imm : Byte)
  /-- code 24: rule R108 -/
  | addReg (rs rt : Reg)
  /-- code 25: rule R109 -/
  | subReg (rs rt : Reg)
  /-- code 26: rule R110 -/
  | mulReg (rs rt : Reg)
  /-- code 27: rule R111 -/
  | divReg (rs rt : Reg)
  /-- code 28: rule R119 -/
  | andReg (rs rt : Reg)
  /-- code 29: rule R120 -/
  | orReg (rs rt : Reg)
  /-- code 30: rule R121 -/
  | notReg (rd rs : Reg)
  /-- code 31: rule R122 -/
  | xorReg (rs rt : Reg)
  deriving DecidableEq, Repr

end Sys2Proof
end

