-- ==== Sys2Proof/Decode.lean ====
section
/-! DEFINITION. Encoding: the fields of the opcode byte, the family-code map, instruction lengths, the
decoder (total on any bytes) and, after it, the encoder (30_encoding.md rules R53 to R74). -/

namespace Sys2Proof

/-! ### Fields -/

/-- The family code, `op[7:3]` (rule R54). -/
def familyCode (op : Byte) : BitVec 5 := op.extractLsb' 3 5

/-- A selector field: bits 2:0 of the opcode byte (rule R54) or of a source-register byte (rule R60). -/
def selectorField (b : Byte) : BitVec 3 := b.extractLsb' 0 3

/-- A 16-bit value from its high and low bytes: `(hi << 8) | lo` (rule R58; 20_memory.md rules R41, R42). -/
def wordOfBytes (hi lo : Byte) : Addr := hi ++ lo

/-- Bits 15:8. -/
def highByte (w : Addr) : Byte := w.extractLsb' 8 8

/-- Bits 7:0. -/
def lowByte (w : Addr) : Byte := w.extractLsb' 0 8

/-- The selector table, read from the number (10_state.md rule R14). The last pattern is selector 7. -/
def Reg.ofSelector (sel : BitVec 3) : Reg :=
  match sel.toNat with
  | 0 => .a
  | 1 => .x
  | 2 => .y
  | 3 => .spa
  | 4 => .pc
  | 5 => .flg
  | 6 => .b
  | _ => .spb

/-- The selector table, read from the name (10_state.md rule R14). -/
def Reg.selector : Reg → BitVec 3
  | .a => 0
  | .x => 1
  | .y => 2
  | .spa => 3
  | .pc => 4
  | .flg => 5
  | .b => 6
  | .spb => 7

/-! ### Formats and lengths -/

/-- The formats of rule R57. -/
inductive Format where
  | i16 | i8 | r8 | rp | n | ill
  deriving DecidableEq, Repr

/-- The format of each family code (rule R57). The last pattern is codes 16 to 23 and 24 to 31. -/
def formatOf (fam : BitVec 5) : Format :=
  match fam.toNat with
  | 0 => .ill
  | 1 | 2 | 3 | 6 | 7 => .i16
  | 4 | 5 => .i8
  | 8 => .n
  | 9 | 10 | 11 | 14 | 15 => .rp
  | 12 | 13 => .r8
  | k => if k < 24 then .i8 else .r8

/-- The bytes an instruction of the format takes (rule R57). -/
def Format.length : Format → Nat
  | .i16 => 3
  | .i8 => 2
  | .r8 => 2
  | .rp => 1
  | .n => 1
  | .ill => 1

/-- The length of the instruction an opcode byte begins, told from that byte alone (rule R63). -/
def instrLength (op : Byte) : Nat := (formatOf (familyCode op)).length

/-! ### The decoder -/

/-- The family-code map (rules R56, R69) applied to an opcode byte and the two bytes after it; a format
shorter than three bytes does not look at the bytes it does not have. The last pattern is code 0. -/
def decodeWord (op b1 b2 : Byte) : Instr :=
  let sel := Reg.ofSelector (selectorField op)
  let src := Reg.ofSelector (selectorField b1)
  let addr := wordOfBytes b1 b2
  match (familyCode op).toNat with
  | 1 => .bneImm addr
  | 2 => .beqImm addr
  | 3 => .jmpImm addr
  | 4 => .movImm sel b1
  | 5 => .cmpImm sel b1
  | 6 => .pokeImm sel addr
  | 7 => .peekImm addr
  | 8 => .syscall
  | 9 => .bneReg
  | 10 => .beqReg
  | 11 => .jmpReg
  | 12 => .movReg sel src
  | 13 => .cmpReg sel src
  | 14 => .pokeReg sel
  | 15 => .peekReg
  | 16 => .addImm sel b1
  | 17 => .subImm sel b1
  | 18 => .mulImm sel b1
  | 19 => .divImm sel b1
  | 20 => .andImm sel b1
  | 21 => .orImm sel b1
  | 22 => .notImm sel b1
  | 23 => .xorImm sel b1
  | 24 => .addReg sel src
  | 25 => .subReg sel src
  | 26 => .mulReg sel src
  | 27 => .divReg sel src
  | 28 => .andReg sel src
  | 29 => .orReg sel src
  | 30 => .notReg sel src
  | 31 => .xorReg sel src
  | _ => .invalid

/-- Why a list of bytes is not an instruction. An unassigned family code is no such reason: it decodes to
`Instr.invalid`, the table's row for it (rule R74). -/
inductive DecodeError where
  /-- no opcode byte -/
  | empty
  /-- the opcode byte asks for this many operand bytes more than there are -/
  | truncated (missing : Nat)
  deriving DecidableEq, Repr

/-- The instruction at the front of a list of bytes, and the bytes after it; total on any bytes. -/
def decode : List Byte → Except DecodeError (Instr × List Byte)
  | [] => .error .empty
  | op :: rest =>
    if instrLength op ≤ rest.length + 1 then
      .ok (decodeWord op (rest.getD 0 0#8) (rest.getD 1 0#8), rest.drop (instrLength op - 1))
    else
      .error (.truncated (instrLength op - (rest.length + 1)))

/-! ### The encoder -/

/-- `op = (fam << 3) | sel` (rule R54). -/
def opcodeByte (fam : BitVec 5) (sel : BitVec 3) : Byte := fam ++ sel

/-- A source-register byte with its ignored bits zero (rules R60, R72). -/
def sourceByte (r : Reg) : Byte := (0 : BitVec 5) ++ r.selector

/-- Format I16 (rule R58). -/
def encodeI16 (fam : BitVec 5) (sel : BitVec 3) (addr : Addr) : List Byte :=
  [opcodeByte fam sel, highByte addr, lowByte addr]

/-- Format I8 (rule R59). -/
def encodeI8 (fam : BitVec 5) (r : Reg) (imm : Byte) : List Byte :=
  [opcodeByte fam r.selector, imm]

/-- Format R8 (rule R60). -/
def encodeR8 (fam : BitVec 5) (r src : Reg) : List Byte :=
  [opcodeByte fam r.selector, sourceByte src]

/-- Formats RP, N and ILL: the opcode byte alone (rules R61, R62, R65). -/
def encodeOne (fam : BitVec 5) (sel : BitVec 3) : List Byte := [opcodeByte fam sel]

/-- The bytes of an instruction, ignored fields written as zero (rule R72). -/
def encode : Instr → List Byte
  | .invalid => encodeOne 0 0
  | .bneImm addr => encodeI16 1 0 addr
  | .beqImm addr => encodeI16 2 0 addr
  | .jmpImm addr => encodeI16 3 0 addr
  | .movImm rd imm => encodeI8 4 rd imm
  | .cmpImm rs imm => encodeI8 5 rs imm
  | .pokeImm rs addr => encodeI16 6 rs.selector addr
  | .peekImm addr => encodeI16 7 0 addr
  | .syscall => encodeOne 8 0
  | .bneReg => encodeOne 9 0
  | .beqReg => encodeOne 10 0
  | .jmpReg => encodeOne 11 0
  | .movReg rd rs => encodeR8 12 rd rs
  | .cmpReg rs rt => encodeR8 13 rs rt
  | .pokeReg rs => encodeOne 14 rs.selector
  | .peekReg => encodeOne 15 0
  | .addImm rs imm => encodeI8 16 rs imm
  | .subImm rs imm => encodeI8 17 rs imm
  | .mulImm rs imm => encodeI8 18 rs imm
  | .divImm rs imm => encodeI8 19 rs imm
  | .andImm rs imm => encodeI8 20 rs imm
  | .orImm rs imm => encodeI8 21 rs imm
  | .notImm rd imm => encodeI8 22 rd imm
  | .xorImm rs imm => encodeI8 23 rs imm
  | .addReg rs rt => encodeR8 24 rs rt
  | .subReg rs rt => encodeR8 25 rs rt
  | .mulReg rs rt => encodeR8 26 rs rt
  | .divReg rs rt => encodeR8 27 rs rt
  | .andReg rs rt => encodeR8 28 rs rt
  | .orReg rs rt => encodeR8 29 rs rt
  | .notReg rd rs => encodeR8 30 rd rs
  | .xorReg rs rt => encodeR8 31 rs rt

/-- The bytes with the fields no handler reads set to zero (rule R66): what `encode` writes for the
instruction these bytes decode to. -/
def clearIgnored (op b1 b2 : Byte) : List Byte :=
  let fam := familyCode op
  let keepsSelector : Bool :=
    match fam.toNat with
    | 0 | 1 | 2 | 3 | 7 | 8 | 9 | 10 | 11 | 15 => false
    | _ => true
  let op' := if keepsSelector then op else opcodeByte fam 0
  match formatOf fam with
  | .i16 => [op', b1, b2]
  | .i8 => [op', b1]
  | .r8 => [op', b1 &&& 0x07#8]
  | .rp | .n | .ill => [op']

/-! ### The host's numbering of an instruction's bits -/

/-- The three bytes of the instruction whose bits are `w`, bit 0 the least significant bit of the first byte;
every bit from `nbits` up is 0. -/
def tableWordBytes (nbits w : Nat) : List Byte :=
  let v := w % 2 ^ nbits
  [BitVec.ofNat 8 v, BitVec.ofNat 8 (v / 256), BitVec.ofNat 8 (v / 65536)]

/-- The instruction the decoder reads from a word numbered as spec/opcode_table.json numbers it. -/
def decodeTableWord (nbits w : Nat) : Option Instr :=
  match decode (tableWordBytes nbits w) with
  | .ok (i, _) => some i
  | .error _ => none

end Sys2Proof
end

