-- ==== Sys2Proof/Config.lean ====
section
/-! DEFINITION. The three parameters a machine is created with (00_scope.md rule R6). They are fixed
at creation and constant afterwards; the model covers every value of them, not one build. -/

namespace Sys2Proof

/-- The parameters `MEMSIZE`, `SP_INIT` and `ENTRY` of rule R6. -/
structure Params where
  /-- `MEMSIZE`: valid addresses are `0 .. memSize - 1`. -/
  memSize : Nat
  /-- `SP_INIT`: the initial stack pointer. -/
  spInit : Addr
  /-- `ENTRY`: the initial program counter. -/
  entry : Addr
  deriving DecidableEq, Repr

/-- The parameters of `State.reset`. `MEMSIZE` 1024 is the source's default and `ENTRY` 0 the spec's
(rule R6, decision D8). `SP_INIT` has no default in the spec: 0 is a DESIGN CHOICE of this model, unsafe
(log entry 1); `create` takes it as an argument. -/
def Params.default : Params := { memSize := 1024, spInit := 0#16, entry := 0#16 }

end Sys2Proof
end

