-- ==== Sys2Proof/Machine/State.lean ====
section
/-! DEFINITION. The architectural state as plain data, the fault causes, the reasons a step can stop, and
the state after reset (10_state.md rules R13 to R30; 60_exceptions.md rules R125 to R127). -/

namespace Sys2Proof.Machine

/-- The complete error taxonomy, in the order of 60_exceptions.md rule R127. -/
inductive Cause where
  /-- the program image is longer than memory; reported by the host operation `load`, never in `run` (rule R133) -/
  | loadError
  /-- an address at or past `MEMSIZE` was read or written (rule R128) -/
  | memoryFault
  /-- a selector names no register: kept for fidelity, unreachable (rule R129) -/
  | invalidRegisterSelector
  /-- the fetched family code is 0 (rule R130) -/
  | invalidOpcode
  /-- DIV with a zero divisor (rule R131) -/
  | divideByZero
  /-- SYSCALL with `A` not 0, 1 or 2 (rule R132) -/
  | unknownSyscall
  deriving DecidableEq, Repr

/-- The outcome of a run (60_exceptions.md rule R125). -/
inductive RunOutcome where
  | ok
  | fault (c : Cause)
  deriving DecidableEq, Repr

/-- The run state (10_state.md rule R26). -/
inductive RunState where
  | running
  | halted (o : RunOutcome)
  deriving DecidableEq, Repr

/-- Memory: (address, byte) pairs, canonical when `Memory.wf` holds (10_state.md rule R25). -/
abbrev Memory := List Host.Cell

/-- The whole architectural state, the tuple of 10_state.md rule R28, with the creation parameters beside it. -/
structure State where
  /-- `MEMSIZE`, `SP_INIT`, `ENTRY`: configuration, set by `create`, written by nothing else (00_scope.md rule R6) -/
  params : Params
  /-- `A`, selector 0 (rule R17) -/
  a : Byte
  /-- `B`, selector 6 (rule R17) -/
  b : Byte
  /-- `X`, selector 1, the high byte of the register pair (rule R18) -/
  x : Byte
  /-- `Y`, selector 2, the low byte of the register pair (rule R18) -/
  y : Byte
  /-- `FLG`, selector 5; bit 0 is the compare flag (rule R23) -/
  flg : Byte
  /-- the program counter; selector 4 is an 8-bit view of it (rules R15, R16, R19) -/
  pc : Addr
  /-- the stack pointer, `SPA` its high byte and `SPB` its low byte (rule R22) -/
  sp : Addr
  /-- memory (rule R25) -/
  mem : Memory
  /-- the run state (rule R26) -/
  run : RunState
  /-- the console output, first byte written first (rule R27) -/
  out : List Byte
  deriving DecidableEq, Repr

/-- Why the model answers no next state. The spec's own faults are not here: a `raise` is a NEXT state whose
`run` is `halted (fault cause)` (60_exceptions.md rule R126). -/
inductive Fault where
  /-- Raised by `step` alone, on a machine that is already halted: a step is enabled only in `Running`
  (10_state.md rule R26), so there is no next state; it carries the stored outcome, which is what `run()` returns
  at once (70_reset_and_hazards.md rule R154). Safe: nothing is claimed of a step the spec does not enable
  (log entry 2). -/
  | halted (o : RunOutcome)
  deriving DecidableEq, Repr

/-- Why the model refuses an instruction. -/
inductive Refusal where
  /-- Raised by an arm of `exec` whose instruction has no meaning. No arm raises it: every row of the opcode table
  has its meaning. Safe. -/
  | notModelled (mnemonic : String)
  deriving DecidableEq, Repr

/-- The state after `create` with parameters `p` (10_state.md rule R29). The zeros of `A`, `B`, `X`, `Y`, `FLG` are the
spec's decision D7. -/
def State.initial (p : Params) : State :=
  { params := p
    a := 0#8
    b := 0#8
    x := 0#8
    y := 0#8
    flg := 0#8
    pc := p.entry
    sp := p.spInit
    mem := []
    run := .running
    out := [] }

/-- The machine right after reset, which is `create` with the default parameters (rules R29, R147). -/
def State.reset : State := State.initial Params.default

end Sys2Proof.Machine
end

