-- ==== Sys2Proof/WellFormed.lean ====
section
/-! DEFINITION. The checks the spec makes on what is given to the machine: an instruction has a handler,
the creation parameters are in range, an image fits. The ranges of an instruction's own operands need no
check: `Reg`, `Byte` and `Addr` have exactly the values their fields admit (30_encoding.md rules R64, R71). -/

namespace Sys2Proof

/-- The instruction's family code is one of the 31 assigned ones (30_encoding.md rules R56, R65). -/
def Instr.wf : Instr → Bool
  | .invalid => false
  | .bneImm _ | .beqImm _ | .jmpImm _ => true
  | .movImm _ _ | .cmpImm _ _ => true
  | .pokeImm _ _ | .peekImm _ => true
  | .syscall => true
  | .bneReg | .beqReg | .jmpReg => true
  | .movReg _ _ | .cmpReg _ _ => true
  | .pokeReg _ | .peekReg => true
  | .addImm _ _ | .subImm _ _ | .mulImm _ _ | .divImm _ _ => true
  | .andImm _ _ | .orImm _ _ | .notImm _ _ | .xorImm _ _ => true
  | .addReg _ _ | .subReg _ _ | .mulReg _ _ | .divReg _ _ => true
  | .andReg _ _ | .orReg _ _ | .notReg _ _ | .xorReg _ _ => true

/-- `MEMSIZE` lies in `1 .. 65536` (00_scope.md rule R6; 70_reset_and_hazards.md rule R148). -/
def Params.wf (p : Params) : Bool :=
  decide (1 ≤ p.memSize) && decide (p.memSize ≤ 65536)

/-- The program image fits in memory (70_reset_and_hazards.md rule R149). -/
def Params.imageFits (p : Params) (image : List Byte) : Bool :=
  decide (image.length ≤ p.memSize)

end Sys2Proof
end

