-- ==== Sys2Proof/Machine/Ops.lean ====
section
/-! DEFINITION. The named operations over memory, registers, the run state and the console, and the fetch
of an instruction. Every meaning is written over these. -/

namespace Sys2Proof.Machine

/-! ### Memory as data -/

/-- What an address with no entry reads as: memory is zero-filled at creation (10_state.md rules R25, R29). -/
def Memory.background : Byte := 0#8

/-- The canonical form: addresses strictly rising, no entry equal to what an unlisted address reads as. -/
abbrev Memory.wf (m : Memory) : Prop :=
  m.Pairwise (fun c d => c.1 < d.1) ∧ ∀ c ∈ m, c.2 ≠ Memory.background

/-- The byte at an address. -/
def Memory.read : Memory → Nat → Byte
  | [], _ => Memory.background
  | (k, v) :: m, n => if k = n then v else Memory.read m n

/-- Drop the entry of an address. -/
def Memory.erase (m : Memory) (n : Nat) : Memory := m.filter (fun c => decide (c.1 ≠ n))

/-- Put an entry before the first greater address. -/
def Memory.insert : Memory → Nat → Byte → Memory
  | [], n, v => [(n, v)]
  | c :: m, n, v => if n < c.1 then (n, v) :: c :: m else c :: Memory.insert m n v

/-- Set the byte at an address; writing what an unlisted address reads as removes the entry. -/
def Memory.write (m : Memory) (n : Nat) (v : Byte) : Memory :=
  if v = Memory.background then Memory.erase m n else Memory.insert (Memory.erase m n) n v

/-- Consecutive bytes from an address up (70_reset_and_hazards.md rule R149). -/
def Memory.writeBytes : Memory → Nat → List Byte → Memory
  | m, _, [] => m
  | m, n, v :: vs => Memory.writeBytes (Memory.write m n v) (n + 1) vs

/-! ### The access primitives -/

/-- `MemRead(addr, 1)` (20_memory.md rule R38). The address is a natural number, not reduced before the test. -/
def State.memRead (s : State) (addr : Nat) : Except Cause Byte :=
  if s.params.memSize ≤ addr then .error .memoryFault else .ok (Memory.read s.mem addr)

/-- `MemWrite(addr, 1, v)` (20_memory.md rule R39). -/
def State.memWrite (s : State) (addr : Nat) (v : Byte) : Except Cause State :=
  if s.params.memSize ≤ addr then .error .memoryFault
  else .ok { s with mem := Memory.write s.mem addr v }

/-- `RegAddr()`: `(X << 8) | Y` (20_memory.md rule R41). -/
def State.regAddr (s : State) : Addr := wordOfBytes s.x s.y

/-! ### The registers through their selectors -/

/-- `x[s]` (10_state.md rule R15). Selector 4 reads `pc[7:0]` (decision D3). -/
def State.getReg (s : State) : Reg → Byte
  | .a => s.a
  | .x => s.x
  | .y => s.y
  | .spa => highByte s.sp
  | .pc => lowByte s.pc
  | .flg => s.flg
  | .b => s.b
  | .spb => lowByte s.sp

/-- `x[s] <- v` (10_state.md rule R16). Selector 4 writes the zero-extended byte into `pc` (decision D3). -/
def State.setReg (s : State) (r : Reg) (v : Byte) : State :=
  match r with
  | .a => { s with a := v }
  | .x => { s with x := v }
  | .y => { s with y := v }
  | .spa => { s with sp := wordOfBytes v (lowByte s.sp) }
  | .pc => { s with pc := wordOfBytes 0#8 v }
  | .flg => { s with flg := v }
  | .b => { s with b := v }
  | .spb => { s with sp := wordOfBytes (highByte s.sp) v }

/-! ### The run state and the console -/

/-- `raise <cause>` (60_exceptions.md rule R126): the writes already made stay, the run state becomes
`Halted(Fault(cause))`; no handler, nothing saved, `pc` not redirected. -/
def raise (c : Cause) (s : State) : State := { s with run := .halted (.fault c) }

/-- `Halt(Ok)` (43_syscall.md rule R98). -/
def haltOk (s : State) : State := { s with run := .halted .ok }

/-- `ConsoleWrite(bytes)` (43_syscall.md rule R101). -/
def consoleWrite (bs : List Byte) (s : State) : State := { s with out := s.out ++ bs }

/-- What a step of a machine already halted answers: no next state, and the stored outcome (10_state.md rule R26;
70_reset_and_hazards.md rule R154). -/
def stepHalted (o : RunOutcome) : Host.Outcome State Fault Refusal := .fault (.halted o)

/-! ### The console syscalls' parts -/

/-- The scan of PrintString from an address up to the first NUL, which is not part of the result; the address
does not wrap (43_syscall.md rule R99, decision D14). The first argument bounds the number of reads. -/
def scanString (s : State) : Nat → Nat → Except Cause (List Byte)
  | 0, _ => .error .memoryFault
  | n + 1, addr =>
    match s.memRead addr with
    | .error c => .error c
    | .ok c =>
      if c = 0#8 then .ok []
      else
        match scanString s n (addr + 1) with
        | .error e => .error e
        | .ok cs => .ok (c :: cs)

/-- The string at an address. `MEMSIZE + 1` reads always reach a NUL or the end of memory. -/
def readString (s : State) (addr : Nat) : Except Cause (List Byte) :=
  scanString s (s.params.memSize + 1) addr

/-- The ASCII character of a decimal digit, `0x30` to `0x39` (43_syscall.md rule R100). -/
def digitChar (d : Nat) : Byte := BitVec.ofNat 8 (0x30 + d)

/-- `decimal(v)`: the shortest decimal numeral, most significant digit first (43_syscall.md rule R100, decision D15). -/
def decimal (v : Byte) : List Byte :=
  let n := v.toNat
  if n < 10 then [digitChar n]
  else if n < 100 then [digitChar (n / 10), digitChar (n % 10)]
  else [digitChar (n / 100), digitChar (n / 10 % 10), digitChar (n % 10)]

/-! ### Fetch -/

/-- The result of fetching from the instruction stream, with the state the fetch leaves in either case. -/
inductive Fetch (α : Type) where
  | got (v : α) (s : State)
  | raised (c : Cause) (s : State)
  deriving DecidableEq, Repr

/-- `pc` moved on by so many bytes, modulo 65536 (10_state.md rule R21, decision D9). -/
def State.advance (s : State) (n : Nat) : State := { s with pc := s.pc + BitVec.ofNat 16 n }

/-- `Fetch8()` (30_encoding.md rule R67): `pc` moves after a successful read and only then, modulo 65536. -/
def fetch8 (s : State) : Fetch Byte :=
  match s.memRead s.pc.toNat with
  | .error c => .raised c s
  | .ok v => .got v (s.advance 1)

/-- `Fetch16()` (30_encoding.md rule R68): high byte first. -/
def fetch16 (s : State) : Fetch Addr :=
  match fetch8 s with
  | .raised c s1 => .raised c s1
  | .got hi s1 =>
    match fetch8 s1 with
    | .raised c s2 => .raised c s2
    | .got lo s2 => .got (wordOfBytes hi lo) s2

/-- So many `Fetch8()`, one after the other. -/
def fetchBytes : Nat → State → Fetch (List Byte)
  | 0, s => .got [] s
  | n + 1, s =>
    match fetch8 s with
    | .raised c s1 => .raised c s1
    | .got v s1 =>
      match fetchBytes n s1 with
      | .raised c s2 => .raised c s2
      | .got vs s2 => .got (v :: vs) s2

/-- The whole instruction at `pc`: the opcode byte, then the operand bytes its family code asks for, then decode
(30_encoding.md rules R53, R63, R64, R69). Every operand byte is fetched before any register is read
(decision D16), so an instruction's meaning starts with `pc` past all its bytes. -/
def fetchInstr (s : State) : Fetch Instr :=
  match fetch8 s with
  | .raised c s1 => .raised c s1
  | .got op s1 =>
    match fetchBytes (instrLength op - 1) s1 with
    | .raised c s2 => .raised c s2
    | .got bs s2 => .got (decodeWord op (bs.getD 0 0#8) (bs.getD 1 0#8)) s2

/-- Put bytes where the fetch will read them, from `pc` up as `Fetch8()` moves; a byte whose address is outside memory
is dropped. -/
def putCode (s : State) (addr : Addr) : List Byte → State
  | [] => s
  | v :: vs =>
    match s.memWrite addr.toNat v with
    | .error _ => putCode s (addr + 1) vs
    | .ok s1 => putCode s1 (addr + 1) vs

end Sys2Proof.Machine
end

