-- ==== Sys2Proof/Machine/Operands.lean ====
section
/-! DEFINITION. The operand forms of 30_encoding.md rule R64: an 8-bit operand is a literal byte or a register, a 16-bit
address is a literal or the register pair. -/

namespace Sys2Proof.Machine

/-- The 8-bit literal of format I8, used as it stands (rules R59, R64a). -/
def literalOperand (imm : Byte) : Byte := imm

/-- The register operand of format R8, read after all bytes are fetched (rules R60, R64c). -/
def registerOperand (r : Reg) (s : State) : Byte := s.getReg r

/-- The 16-bit literal of format I16, absolute (rules R58, R64b). -/
def literalAddress (addr : Addr) : Addr := addr

/-- The register pair of format RP (rules R61, R64d). -/
def pairAddress (s : State) : Addr := s.regAddr

end Sys2Proof.Machine
end

