-- ==== Sys2Proof/Machine/Arithmetic.lean ====
section
/-! DEFINITION. ADD, SUB, MUL, DIV (44_arithmetic.md rules R102 to R113). The selector register is the first operand
and is not written; the result goes to `A`. -/

namespace Sys2Proof.Machine

/-- A result lands in `A` (rules R17, R102). -/
def resultToA (v : Byte) (s : State) : Host.Outcome State Fault Refusal := .next { s with a := v }

/-- DIV of two operands already read: quotient to `A` and remainder to `B`, or the fault before any write (rule R112). -/
def divide (v w : Byte) (s : State) : Host.Outcome State Fault Refusal :=
  if w = 0#8 then .next (raise .divideByZero s)
  else .next { s with a := aluDiv v w, b := aluMod v w }

/-- Rule R104. -/
def execAddImm (rs : Reg) (imm : Byte) (s : State) : Host.Outcome State Fault Refusal :=
  resultToA (aluAdd (s.getReg rs) (literalOperand imm)) s

/-- Rule R108. -/
def execAddReg (rs rt : Reg) (s : State) : Host.Outcome State Fault Refusal :=
  resultToA (aluAdd (s.getReg rs) (registerOperand rt s)) s

/-- Rule R105. -/
def execSubImm (rs : Reg) (imm : Byte) (s : State) : Host.Outcome State Fault Refusal :=
  resultToA (aluSub (s.getReg rs) (literalOperand imm)) s

/-- Rule R109. -/
def execSubReg (rs rt : Reg) (s : State) : Host.Outcome State Fault Refusal :=
  resultToA (aluSub (s.getReg rs) (registerOperand rt s)) s

/-- Rule R106. -/
def execMulImm (rs : Reg) (imm : Byte) (s : State) : Host.Outcome State Fault Refusal :=
  resultToA (aluMul (s.getReg rs) (literalOperand imm)) s

/-- Rule R110. -/
def execMulReg (rs rt : Reg) (s : State) : Host.Outcome State Fault Refusal :=
  resultToA (aluMul (s.getReg rs) (registerOperand rt s)) s

/-- Rule R107. -/
def execDivImm (rs : Reg) (imm : Byte) (s : State) : Host.Outcome State Fault Refusal :=
  divide (s.getReg rs) (literalOperand imm) s

/-- Rule R111. -/
def execDivReg (rs rt : Reg) (s : State) : Host.Outcome State Fault Refusal :=
  divide (s.getReg rs) (registerOperand rt s) s

end Sys2Proof.Machine
end

