-- ==== Sys2Proof/Machine/Flags.lean ====
section
/-! DEFINITION. The one flag of the machine, bit 0 of `FLG` (10_state.md rule R23; 41_move_compare.md rule R86). -/

namespace Sys2Proof.Machine

/-- `FLG[0]`, the only bit a branch reads (40_branch.md rule R75). -/
def State.compareFlag (s : State) : Bool := s.flg.getLsbD 0

/-- Set or clear `FLG[0]`; bits 7:1 stay (rule R86, decision D6). -/
def State.setCompareFlag (s : State) (equal : Bool) : State :=
  { s with flg := if equal then s.flg ||| 0x01#8 else s.flg &&& 0xFE#8 }

/-- The equality comparator of CMP: all eight bits of two bytes (rule R86). -/
def compare (v w : Byte) (s : State) : State := s.setCompareFlag (decide (v = w))

end Sys2Proof.Machine
end

