-- ==== Sys2Proof/Machine/Branch.lean ====
section
/-! DEFINITION. BNE, BEQ, JMP (40_branch.md rules R75 to R82). `pc` is already past the instruction's bytes. -/

namespace Sys2Proof.Machine

/-- A transfer that is taken replaces the whole `pc`, unchecked; one that is not leaves it (rules R75, R82). -/
def branchIf (taken : Bool) (target : Addr) (s : State) : State :=
  if taken then { s with pc := target } else s

/-- Rule R76. -/
def execBneImm (addr : Addr) (s : State) : Host.Outcome State Fault Refusal :=
  .next (branchIf (!s.compareFlag) (literalAddress addr) s)

/-- Rule R77. -/
def execBeqImm (addr : Addr) (s : State) : Host.Outcome State Fault Refusal :=
  .next (branchIf s.compareFlag (literalAddress addr) s)

/-- Rule R78. -/
def execJmpImm (addr : Addr) (s : State) : Host.Outcome State Fault Refusal :=
  .next (branchIf true (literalAddress addr) s)

/-- Rule R79. -/
def execBneReg (s : State) : Host.Outcome State Fault Refusal :=
  .next (branchIf (!s.compareFlag) (pairAddress s) s)

/-- Rule R80. -/
def execBeqReg (s : State) : Host.Outcome State Fault Refusal :=
  .next (branchIf s.compareFlag (pairAddress s) s)

/-- Rule R81. -/
def execJmpReg (s : State) : Host.Outcome State Fault Refusal :=
  .next (branchIf true (pairAddress s) s)

end Sys2Proof.Machine
end

