-- ==== Sys2Proof/Machine/Invalid.lean ====
section
/-! DEFINITION. Family code 0 (30_encoding.md rule R65). -/

namespace Sys2Proof.Machine

/-- Code 0: `raise InvalidOpcode`, with `pc` past the one byte (rules R65, R130). -/
def execInvalid (s : State) : Host.Outcome State Fault Refusal :=
  .next (raise .invalidOpcode s)

end Sys2Proof.Machine
end

