-- ==== Sys2Proof/Machine/Logic.lean ====
section
/-! DEFINITION. AND, OR, NOT, XOR (45_logic.md rules R114 to R124). AND, OR and XOR send their result to `A`; NOT
writes the register its selector names. -/

namespace Sys2Proof.Machine

/-- Rule R115. -/
def execAndImm (rs : Reg) (imm : Byte) (s : State) : Host.Outcome State Fault Refusal :=
  resultToA (aluAnd (s.getReg rs) (literalOperand imm)) s

/-- Rule R119. -/
def execAndReg (rs rt : Reg) (s : State) : Host.Outcome State Fault Refusal :=
  resultToA (aluAnd (s.getReg rs) (registerOperand rt s)) s

/-- Rule R116. -/
def execOrImm (rs : Reg) (imm : Byte) (s : State) : Host.Outcome State Fault Refusal :=
  resultToA (aluOr (s.getReg rs) (literalOperand imm)) s

/-- Rule R120. -/
def execOrReg (rs rt : Reg) (s : State) : Host.Outcome State Fault Refusal :=
  resultToA (aluOr (s.getReg rs) (registerOperand rt s)) s

/-- Rule R118. -/
def execXorImm (rs : Reg) (imm : Byte) (s : State) : Host.Outcome State Fault Refusal :=
  resultToA (aluXor (s.getReg rs) (literalOperand imm)) s

/-- Rule R122. -/
def execXorReg (rs rt : Reg) (s : State) : Host.Outcome State Fault Refusal :=
  resultToA (aluXor (s.getReg rs) (registerOperand rt s)) s

/-- Rule R117; the destination is the selector register (rule R123). -/
def execNotImm (rd : Reg) (imm : Byte) (s : State) : Host.Outcome State Fault Refusal :=
  .next (s.setReg rd (aluNot (literalOperand imm)))

/-- Rule R121. -/
def execNotReg (rd rs : Reg) (s : State) : Host.Outcome State Fault Refusal :=
  .next (s.setReg rd (aluNot (registerOperand rs s)))

end Sys2Proof.Machine
end

