-- ==== Sys2Proof/Machine/MemoryAccess.lean ====
section
/-! DEFINITION. POKE and PEEK (42_memory_access.md rules R89 to R94). -/

namespace Sys2Proof.Machine

/-- The store of one byte, or the fault with nothing stored (rules R89, R90, R92). -/
def storeByte (ea : Addr) (v : Byte) (s : State) : Host.Outcome State Fault Refusal :=
  match s.memWrite ea.toNat v with
  | .error c => .next (raise c s)
  | .ok s1 => .next s1

/-- The load of one byte into `A`, or the fault with `A` unchanged (rules R89, R91, R93). -/
def loadA (ea : Addr) (s : State) : Host.Outcome State Fault Refusal :=
  match s.memRead ea.toNat with
  | .error c => .next (raise c s)
  | .ok v => .next { s with a := v }

/-- Rule R90. -/
def execPokeImm (rs : Reg) (addr : Addr) (s : State) : Host.Outcome State Fault Refusal :=
  storeByte (literalAddress addr) (s.getReg rs) s

/-- Rule R91. -/
def execPeekImm (addr : Addr) (s : State) : Host.Outcome State Fault Refusal :=
  loadA (literalAddress addr) s

/-- Rule R92. -/
def execPokeReg (rs : Reg) (s : State) : Host.Outcome State Fault Refusal :=
  storeByte (pairAddress s) (s.getReg rs) s

/-- Rule R93. -/
def execPeekReg (s : State) : Host.Outcome State Fault Refusal :=
  loadA (pairAddress s) s

end Sys2Proof.Machine
end

