-- ==== Sys2Proof/Machine/MoveCompare.lean ====
section
/-! DEFINITION. MOV and CMP (41_move_compare.md rules R83 to R88). -/

namespace Sys2Proof.Machine

/-- Rule R83, with the special destinations of rule R85 through `setReg`. -/
def execMovImm (rd : Reg) (imm : Byte) (s : State) : Host.Outcome State Fault Refusal :=
  .next (s.setReg rd (literalOperand imm))

/-- Rule R84. -/
def execMovReg (rd rs : Reg) (s : State) : Host.Outcome State Fault Refusal :=
  .next (s.setReg rd (registerOperand rs s))

/-- Rule R87. -/
def execCmpImm (rs : Reg) (imm : Byte) (s : State) : Host.Outcome State Fault Refusal :=
  .next (compare (s.getReg rs) (literalOperand imm) s)

/-- Rule R88. -/
def execCmpReg (rs rt : Reg) (s : State) : Host.Outcome State Fault Refusal :=
  .next (compare (s.getReg rs) (registerOperand rt s) s)

end Sys2Proof.Machine
end

