-- ==== Sys2Proof/Machine/Syscall.lean ====
section
/-! DEFINITION. SYSCALL and the three syscalls (43_syscall.md rules R95 to R101). -/

namespace Sys2Proof.Machine

/-- Syscall 1: the scan is complete before anything is written (rule R99, decision D14). -/
def printString (s : State) : State :=
  match readString s (pairAddress s).toNat with
  | .error c => raise c s
  | .ok bs => consoleWrite bs s

/-- Syscall 2: the decimal numeral of the byte at `X:Y` (rule R100). -/
def printNumber (s : State) : State :=
  match s.memRead (pairAddress s).toNat with
  | .error c => raise c s
  | .ok v => consoleWrite (decimal v) s

/-- Rule R95: the syscall numbered by `A`. -/
def execSyscall (s : State) : Host.Outcome State Fault Refusal :=
  if s.a = 0#8 then .next (haltOk s)
  else if s.a = 1#8 then .next (printString s)
  else if s.a = 2#8 then .next (printNumber s)
  else .next (raise .unknownSyscall s)

end Sys2Proof.Machine
end

