-- ==== Sys2Proof/Machine/Dispatch.lean ====
section
/-! DEFINITION. One arm per row of spec/opcode_table.json, in family-code order (30_encoding.md rule R69). The state
given to `exec` is the one after the instruction's bytes have been fetched. -/

namespace Sys2Proof.Machine

def exec (i : Instr) (s : State) : Host.Outcome State Fault Refusal :=
  match i with
  | .invalid => Sys2Proof.Machine.execInvalid s
  | .bneImm addr => Sys2Proof.Machine.execBneImm addr s
  | .beqImm addr => Sys2Proof.Machine.execBeqImm addr s
  | .jmpImm addr => Sys2Proof.Machine.execJmpImm addr s
  | .movImm rd imm => Sys2Proof.Machine.execMovImm rd imm s
  | .cmpImm rs imm => Sys2Proof.Machine.execCmpImm rs imm s
  | .pokeImm rs addr => Sys2Proof.Machine.execPokeImm rs addr s
  | .peekImm addr => Sys2Proof.Machine.execPeekImm addr s
  | .syscall => Sys2Proof.Machine.execSyscall s
  | .bneReg => Sys2Proof.Machine.execBneReg s
  | .beqReg => Sys2Proof.Machine.execBeqReg s
  | .jmpReg => Sys2Proof.Machine.execJmpReg s
  | .movReg rd rs => Sys2Proof.Machine.execMovReg rd rs s
  | .cmpReg rs rt => Sys2Proof.Machine.execCmpReg rs rt s
  | .pokeReg rs => Sys2Proof.Machine.execPokeReg rs s
  | .peekReg => Sys2Proof.Machine.execPeekReg s
  | .addImm rs imm => Sys2Proof.Machine.execAddImm rs imm s
  | .subImm rs imm => Sys2Proof.Machine.execSubImm rs imm s
  | .mulImm rs imm => Sys2Proof.Machine.execMulImm rs imm s
  | .divImm rs imm => Sys2Proof.Machine.execDivImm rs imm s
  | .andImm rs imm => Sys2Proof.Machine.execAndImm rs imm s
  | .orImm rs imm => Sys2Proof.Machine.execOrImm rs imm s
  | .notImm rd imm => Sys2Proof.Machine.execNotImm rd imm s
  | .xorImm rs imm => Sys2Proof.Machine.execXorImm rs imm s
  | .addReg rs rt => Sys2Proof.Machine.execAddReg rs rt s
  | .subReg rs rt => Sys2Proof.Machine.execSubReg rs rt s
  | .mulReg rs rt => Sys2Proof.Machine.execMulReg rs rt s
  | .divReg rs rt => Sys2Proof.Machine.execDivReg rs rt s
  | .andReg rs rt => Sys2Proof.Machine.execAndReg rs rt s
  | .orReg rs rt => Sys2Proof.Machine.execOrReg rs rt s
  | .notReg rd rs => Sys2Proof.Machine.execNotReg rd rs s
  | .xorReg rs rt => Sys2Proof.Machine.execXorReg rs rt s

end Sys2Proof.Machine
end

