-- ==== Sys2Proof/Machine/Step.lean ====
section
/-! DEFINITION. One step of the machine (30_encoding.md rule R69), and placing an instruction where the next
step fetches it. -/

namespace Sys2Proof.Machine

/-- One step: fetch the instruction at `pc`, then its effect. A fetch that faults halts the machine with `pc` past the
bytes fetched so far (60_exceptions.md rule R135). A halted machine takes no step (10_state.md rule R26). -/
def step (s : State) : Host.Outcome State Fault Refusal :=
  match s.run with
  | .halted o => stepHalted o
  | .running =>
    match fetchInstr s with
    | .raised c s1 => .next (raise c s1)
    | .got i s1 => exec i s1

/-- The instruction whose bits are `w`, numbered as spec/opcode_table.json numbers them, stored from `pc` up: three bytes,
the longest instruction, every bit from `nbits` up zero. Nothing but memory changes. It stands for the host's `load`
(log entry 4). -/
def State.withFetchWord (s : State) (nbits w : Nat) : State :=
  putCode s s.pc (tableWordBytes nbits w)

end Sys2Proof.Machine
end

