-- ==== Sys2Proof/Machine/HostOps.lean ====
section
/-! DEFINITION. The host's operations (70_reset_and_hazards.md rules R147 to R155; 60_exceptions.md rules R133, R144, R145):
create, load, run, result, dumpRegisters, and the order they may come in. -/

namespace Sys2Proof.Machine

/-- Why a host operation is refused; no refusal changes anything. -/
inductive HostRefusal where
  /-- `create` with `MEMSIZE` outside `1 .. 65536` (rule R148) -/
  | badMemSize
  /-- an operation out of the order create, load, run (rule R155, decision D18) -/
  | outOfOrder
  deriving DecidableEq, Repr

/-- `create(MEMSIZE, SP_INIT, ENTRY)` (rules R147, R148). -/
def create (p : Params) : Except HostRefusal State :=
  if p.wf then .ok (State.initial p) else .error .badMemSize

/-- `load(bytes)` (rules R149, R150): the length check precedes the copy, so a failed load copies nothing. -/
def load (image : List Byte) (s : State) : Except Cause State :=
  if s.params.imageFits image then .ok { s with mem := Memory.writeBytes s.mem 0 image }
  else .error .loadError

/-- What a run under a step budget comes to (rules R152, R162, R166). -/
inductive RunResult where
  /-- the outcome `run()` returns, and the final state -/
  | finished (o : RunOutcome) (s : State)
  /-- the runner's budget is spent and the machine still runs: the runner's verdict, no fault of the machine -/
  | budgetSpent (s : State)
  /-- a running machine whose step answers no next state: never, which is a claim -/
  | stuck (s : State)
  deriving DecidableEq, Repr

/-- `run()`, the loop of 30_encoding.md rule R70, under the runner's `STEP_BUDGET` (decision D17). -/
def runFor : Nat → State → RunResult
  | n, s =>
    match s.run with
    | .halted o => .finished o s
    | .running =>
      match n with
      | 0 => .budgetSpent s
      | n + 1 =>
        match step s with
        | .next t => runFor n t
        | .fault _ => .stuck s
        | .refused _ => .stuck s

/-- `result()`: the value of `A`, at any time between steps (rule R144). -/
def result (s : State) : Byte := s.a

/-- The content of the register dump (rule R145, decision D23). -/
structure RegisterDump where
  a : Byte
  b : Byte
  x : Byte
  y : Byte
  spa : Byte
  spb : Byte
  pc : Addr
  flg : Byte
  deriving DecidableEq, Repr

/-- `dumpRegisters()` (rule R145). Rules R153 and R155 list it after `run` and R145 does not say when it may come: that it
is allowed at any time between steps, before `run` too, and in every phase, is a DESIGN CHOICE of this model, unsafe (log
entry 35). -/
def dumpRegisters (s : State) : RegisterDump :=
  { a := s.a
    b := s.b
    x := s.x
    y := s.y
    spa := s.getReg .spa
    spb := s.getReg .spb
    pc := s.pc
    flg := s.flg }

/-- How far the host has come with one machine (rules R153, R155). -/
inductive Phase where
  | created
  | loaded
  /-- `load` reported this cause; the machine is not run (rule R150) -/
  | loadFailed (c : Cause)
  | ran
  deriving DecidableEq, Repr

/-- One machine in its host's hands. The phase is the host's, not the machine's: rule R28 lists no such state. -/
structure Session where
  phase : Phase
  machine : State
  deriving DecidableEq, Repr

/-- The start of a lifecycle (rule R153). -/
def Session.create (p : Params) : Except HostRefusal Session :=
  match Machine.create p with
  | .error e => .error e
  | .ok s => .ok { phase := .created, machine := s }

/-- `load`, once, after `create` and before `run` (rules R149, R155). -/
def Session.load (image : List Byte) (h : Session) : Except HostRefusal Session :=
  match h.phase with
  | .created =>
    match Machine.load image h.machine with
    | .error c => .ok { h with phase := .loadFailed c }
    | .ok s => .ok { phase := .loaded, machine := s }
  | .loaded => .error .outOfOrder
  | .loadFailed _ => .error .outOfOrder
  | .ran => .error .outOfOrder

/-- `run`, also before any `load` and also on a machine already halted, but not after a failed load
(rules R150, R154, R155). -/
def Session.run (budget : Nat) (h : Session) : Except HostRefusal (RunResult × Session) :=
  match h.phase with
  | .loadFailed _ => .error .outOfOrder
  | .created | .loaded | .ran =>
    let r := runFor budget h.machine
    match r with
    | .finished _ s => .ok (r, { phase := .ran, machine := s })
    | .budgetSpent s => .ok (r, { phase := .ran, machine := s })
    | .stuck s => .ok (r, { phase := .ran, machine := s })

end Sys2Proof.Machine
end

