-- ==== Sys2Proof/Machine/SpecStep.lean ====
section
/-! DEFINITION. The step as 30_encoding.md rule R69 writes it: the opcode byte is fetched, the family code dispatched, and
each handler fetches its own operand bytes. `step` fetches the whole instruction first; that the two are one function is a
claim. -/

namespace Sys2Proof.Machine

/-- A handler of format I8: fetch the literal, then the effect (rule R59). -/
def withLiteral (s : State) (k : Byte → State → Host.Outcome State Fault Refusal) :
    Host.Outcome State Fault Refusal :=
  match fetch8 s with
  | .raised c s1 => .next (raise c s1)
  | .got imm s1 => k imm s1

/-- A handler of format R8: fetch the source-register byte, mask it to a selector, then the effect (rule R60). -/
def withSource (s : State) (k : Reg → State → Host.Outcome State Fault Refusal) :
    Host.Outcome State Fault Refusal :=
  match fetch8 s with
  | .raised c s1 => .next (raise c s1)
  | .got t s1 => k (Reg.ofSelector (selectorField t)) s1

/-- A handler of format I16: `Fetch16()`, then the effect (rules R58, R68). -/
def withAddress (s : State) (k : Addr → State → Host.Outcome State Fault Refusal) :
    Host.Outcome State Fault Refusal :=
  match fetch16 s with
  | .raised c s1 => .next (raise c s1)
  | .got addr s1 => k addr s1

/-- The dispatch of rule R69 on the opcode byte just fetched. The last pattern is code 0. -/
def specDispatch (op : Byte) (s : State) : Host.Outcome State Fault Refusal :=
  let sel := Reg.ofSelector (selectorField op)
  match (familyCode op).toNat with
  | 1 => withAddress s execBneImm
  | 2 => withAddress s execBeqImm
  | 3 => withAddress s execJmpImm
  | 4 => withLiteral s (execMovImm sel)
  | 5 => withLiteral s (execCmpImm sel)
  | 6 => withAddress s (execPokeImm sel)
  | 7 => withAddress s execPeekImm
  | 8 => execSyscall s
  | 9 => execBneReg s
  | 10 => execBeqReg s
  | 11 => execJmpReg s
  | 12 => withSource s (execMovReg sel)
  | 13 => withSource s (execCmpReg sel)
  | 14 => execPokeReg sel s
  | 15 => execPeekReg s
  | 16 => withLiteral s (execAddImm sel)
  | 17 => withLiteral s (execSubImm sel)
  | 18 => withLiteral s (execMulImm sel)
  | 19 => withLiteral s (execDivImm sel)
  | 20 => withLiteral s (execAndImm sel)
  | 21 => withLiteral s (execOrImm sel)
  | 22 => withLiteral s (execNotImm sel)
  | 23 => withLiteral s (execXorImm sel)
  | 24 => withSource s (execAddReg sel)
  | 25 => withSource s (execSubReg sel)
  | 26 => withSource s (execMulReg sel)
  | 27 => withSource s (execDivReg sel)
  | 28 => withSource s (execAndReg sel)
  | 29 => withSource s (execOrReg sel)
  | 30 => withSource s (execNotReg sel)
  | 31 => withSource s (execXorReg sel)
  | _ => .next (raise .invalidOpcode s)

/-- Rule R69, enabled only when running. -/
def specStep (s : State) : Host.Outcome State Fault Refusal :=
  match s.run with
  | .halted o => stepHalted o
  | .running =>
    match fetch8 s with
    | .raised c s1 => .next (raise c s1)
    | .got op s1 => specDispatch op s1

end Sys2Proof.Machine
end

