-- ==== Sys2Proof/Safety.lean ====
section
/-! DEFINITION. What claims are stated in: the invariant of the machine, the code at an address, the instruction a step
runs, what an instruction may read and write, and a safe run. -/

namespace Sys2Proof

/-- The registers an instruction may write, the column "writes" of 10_state.md rule R24. The advance of `pc` is not in it;
a destination that is selector 4 is. -/
def Instr.mayWrite (i : Instr) (r : Reg) : Bool :=
  match i with
  | .movImm rd _ | .movReg rd _ | .notImm rd _ | .notReg rd _ => decide (r = rd)
  | .cmpImm _ _ | .cmpReg _ _ => decide (r = .flg)
  | .peekImm _ | .peekReg => decide (r = .a)
  | .addImm _ _ | .subImm _ _ | .mulImm _ _ | .andImm _ _ | .orImm _ _ | .xorImm _ _ => decide (r = .a)
  | .addReg _ _ | .subReg _ _ | .mulReg _ _ | .andReg _ _ | .orReg _ _ | .xorReg _ _ => decide (r = .a)
  | .divImm _ _ | .divReg _ _ => decide (r = .a) || decide (r = .b)
  | .bneImm _ | .beqImm _ | .jmpImm _ | .bneReg | .beqReg | .jmpReg => decide (r = .pc)
  | .invalid | .pokeImm _ _ | .pokeReg _ | .syscall => false

/-- The registers an instruction may read, the column "reads" of 10_state.md rule R24. -/
def Instr.mayRead (i : Instr) (r : Reg) : Bool :=
  match i with
  | .invalid | .jmpImm _ | .movImm _ _ | .peekImm _ | .notImm _ _ => false
  | .bneImm _ | .beqImm _ => decide (r = .flg)
  | .bneReg | .beqReg => decide (r = .flg) || decide (r = .x) || decide (r = .y)
  | .jmpReg | .peekReg => decide (r = .x) || decide (r = .y)
  | .movReg _ rs | .notReg _ rs => decide (r = rs)
  | .cmpImm rs _ | .pokeImm rs _ => decide (r = rs)
  | .addImm rs _ | .subImm rs _ | .mulImm rs _ | .divImm rs _ => decide (r = rs)
  | .andImm rs _ | .orImm rs _ | .xorImm rs _ => decide (r = rs)
  | .pokeReg rs => decide (r = rs) || decide (r = .x) || decide (r = .y)
  | .syscall => decide (r = .a) || decide (r = .x) || decide (r = .y)
  | .cmpReg rs rt => decide (r = rs) || decide (r = rt)
  | .addReg rs rt | .subReg rs rt | .mulReg rs rt | .divReg rs rt => decide (r = rs) || decide (r = rt)
  | .andReg rs rt | .orReg rs rt | .xorReg rs rt => decide (r = rs) || decide (r = rt)

end Sys2Proof

namespace Sys2Proof.Machine

/-- The invariant every step keeps: parameters in range (00_scope.md rule R6), memory in its canonical form and inside
`MEMSIZE` (10_state.md rule R25), no cause in `run` that only the host or nothing can raise (60_exceptions.md rules R129,
R133), and `A = 0` after an `Ok` halt (70_reset_and_hazards.md rule R157). -/
structure State.Inv (s : State) : Prop where
  params : s.params.wf = true
  canonical : Memory.wf s.mem
  inside : ∀ c ∈ s.mem, c.1 < s.params.memSize
  noLoadError : s.run ≠ .halted (.fault .loadError)
  noSelectorFault : s.run ≠ .halted (.fault .invalidRegisterSelector)
  exitCode : s.run = .halted .ok → s.a = 0#8

/-- The bytes stand in memory from `p` up, where successive `Fetch8()` read them: addresses modulo 65536, every one below
`MEMSIZE` (30_encoding.md rule R67). -/
def codeAt (s : State) (p : Addr) : List Byte → Bool
  | [] => true
  | v :: vs =>
    decide (p.toNat < s.params.memSize) && decide (Memory.read s.mem p.toNat = v) && codeAt s (p + 1) vs

/-- The instruction the next step runs, or none where the step halts in the fetch. -/
def currentInstr (s : State) : Option Instr :=
  match fetchInstr s with
  | .got i _ => some i
  | .raised _ _ => none

/-- Register `r` of `t` holds `v`, and nothing else of `t` differs from `s` that a write through selector `r` does not
reach: every other selector, memory, the run state, the console and the parameters; `pc` is kept unless `r` is selector 4,
which sets it to the zero-extended byte (10_state.md rule R16). -/
structure WritesOnly (r : Reg) (v : Byte) (s t : State) : Prop where
  value : t.getReg r = v
  others : ∀ q, q ≠ r → t.getReg q = s.getReg q
  pcKept : r ≠ .pc → t.pc = s.pc
  pcWritten : r = .pc → t.pc.toNat = v.toNat
  mem : t.mem = s.mem
  run : t.run = s.run
  out : t.out = s.out
  params : t.params = s.params

/-- The states a machine passes through. -/
inductive Reaches (s : State) : State → Prop where
  | start : Reaches s s
  | step {t u : State} (before : Reaches s t) (taken : Machine.step t = .next u) : Reaches s u

/-- A safe run: no state the machine passes through is halted by a fault. It may end with `Ok` or go on for ever. -/
def SafeFrom (s : State) : Prop := ∀ t, Reaches s t → ∀ c, t.run ≠ .halted (.fault c)

end Sys2Proof.Machine
end

