-- ==== Sys2Proof/Certificates/Slice0/Obligations.lean ====
section
/-! DEFINITION. The statements for the provers, in groups: the primitives, the encoding, the step, the result of each
instruction (as an equation for `exec`, which is its completion and its frame at once), the rules about the whole machine,
and the host's operations. A docstring names the rule, and the spec's decision (92_eei_decisions.md) or the model's log entry
where a clause rests on one. `exec` runs after the fetch, so `pc` there is the address past the instruction. -/

open Sys2Proof Sys2Proof.Machine

/-! ### The primitives -/

/-- `x[s] <- v; x[s]` gives `v` for all eight selectors, and the write reaches nothing else (10_state.md §1, the register
write and its round trip; what selector 4 does is decision D3). -/
def Obligations.RegisterWriteReadsBackAndReachesNothingElse : Prop :=
  ∀ (s : State) (r : Reg) (v : Byte), WritesOnly r v s (s.setReg r v)

/-- The selector table 0 to 7 (10_state.md §1), every selector field naming a register by its low three bits, and what a
read of each register returns; that selector 4 returns `pc[7:0]` is decision D3. -/
def Obligations.SelectorTableAndRegisterViews : Prop :=
  (∀ w : Byte, some (Reg.ofSelector (selectorField w)) =
    [Reg.a, .x, .y, .spa, .pc, .flg, .b, .spb][w.toNat % 8]?) ∧
  ∀ s : State, s.getReg .a = s.a ∧ s.getReg .x = s.x ∧ s.getReg .y = s.y ∧ s.getReg .flg = s.flg ∧ s.getReg .b = s.b ∧
    (s.getReg .spa).toNat = s.sp.toNat / 256 ∧ (s.getReg .spb).toNat = s.sp.toNat % 256 ∧
    (s.getReg .pc).toNat = s.pc.toNat % 256

/-- `MemRead` and `MemWrite`: outside `0 .. MEMSIZE-1` both raise `MemoryFault` and nothing is written; inside, a read
returns the byte there, and a write changes exactly that byte (rules R38, R39). -/
def Obligations.MemoryReadsAndWritesOneByteInBounds : Prop :=
  ∀ (s : State) (n : Nat) (v : Byte),
    (s.params.memSize ≤ n → s.memRead n = .error .memoryFault ∧ s.memWrite n v = .error .memoryFault) ∧
    (n < s.params.memSize →
      s.memRead n = .ok (Memory.read s.mem n) ∧
      ∃ t, s.memWrite n v = .ok t ∧ t.memRead n = .ok v ∧ (∀ k, k ≠ n → t.memRead k = s.memRead k) ∧
        t = { s with mem := t.mem })

/-- `RegAddr()` is `X * 256 + Y` (20_memory.md §3), and it is the target of a jump through the pair and the address of a
load through it. -/
def Obligations.PairAddressIsXHighYLow : Prop :=
  ∀ s : State, s.regAddr.toNat = s.x.toNat * 256 + s.y.toNat ∧
    exec .jmpReg s = .next { s with pc := s.regAddr } ∧
    ∀ v, s.memRead (s.x.toNat * 256 + s.y.toNat) = .ok v → exec .peekReg s = .next { s with a := v }

/-- `Fetch8()`: past the end of memory it raises with `pc` unmoved; otherwise it returns the byte at `pc` and moves `pc` by
one modulo 65536 (30_encoding.md §5; the moment of the increment is decision D10, the wrap decision D9). -/
def Obligations.FetchByteMovesPcOnlyOnSuccess : Prop :=
  ∀ s : State,
    (s.params.memSize ≤ s.pc.toNat → fetch8 s = .raised .memoryFault s) ∧
    (∀ v, s.memRead s.pc.toNat = .ok v →
      fetch8 s = .got v { s with pc := BitVec.ofNat 16 ((s.pc.toNat + 1) % 65536) })

/-- `Fetch16()` is two `Fetch8()`, high byte first; if the second faults, `pc` is past the high byte (rule R68). -/
def Obligations.FetchAddressIsTwoBytesHighFirst : Prop :=
  ∀ s : State,
    (∀ c u, fetch8 s = .raised c u → fetch16 s = .raised c u) ∧
    (∀ hi t, fetch8 s = .got hi t →
      (∀ c u, fetch8 t = .raised c u → fetch16 s = .raised c u ∧ u.pc = s.pc + 1) ∧
      (∀ lo u, fetch8 t = .got lo u → ∃ w, fetch16 s = .got w u ∧ w.toNat = hi.toNat * 256 + lo.toNat))

/-! ### The encoding -/

/-- Decoding the encoding of any instruction, whatever bytes follow it, gives that instruction and those bytes, with every
operand at every value (30_encoding.md §§1 to 4; the encoder writes ignored fields as zero, §6). -/
def Obligations.DecodeOfEncodeIsTheInstruction : Prop :=
  ∀ (i : Instr) (rest : List Byte), decode (encode i ++ rest) = .ok (i, rest)

/-- The other direction: the encoding of what any three bytes decode to is those bytes up to the instruction's length, with
the fields no handler reads set to zero (30_encoding.md §§3, 4; that they are ignored is decision D13). -/
def Obligations.EncodeOfDecodeIsTheWordWithIgnoredFieldsZero : Prop :=
  ∀ op b1 b2 : Byte, encode (decodeWord op b1 b2) = clearIgnored op b1 b2

/-- The ignored fields: the selector of BNE, BEQ, JMP, PEEK, SYSCALL and of code 0, and bits 7:3 of a source-register byte,
change nothing (30_encoding.md §4, decision D13). -/
def Obligations.IgnoredFieldsChangeNothing : Prop :=
  ∀ op op' b1 b1' b2 : Byte,
    (op.toNat / 8 = op'.toNat / 8 → op.toNat / 8 ∈ [0, 1, 2, 3, 7, 8, 9, 10, 11, 15] →
      decodeWord op b1 b2 = decodeWord op' b1 b2) ∧
    (op.toNat / 8 ∈ [12, 13] ∨ 24 ≤ op.toNat / 8 → b1.toNat % 8 = b1'.toNat % 8 →
      decodeWord op b1 b2 = decodeWord op b1' b2)

/-- The decoder is total and takes exactly the length the family code fixes (30_encoding.md §§3, 5). That it is the decoder
that refuses a list too short for that, and under the names `empty` and `truncated`, is the model's choice, log entry 30: the
spec knows only the fetch that faults. -/
def Obligations.DecoderTakesTheLengthOfTheFamily : Prop :=
  (decode [] = .error .empty) ∧
  ∀ (op : Byte) (rest : List Byte),
    let len := if op.toNat / 8 ∈ [1, 2, 3, 6, 7] then 3
      else if op.toNat / 8 ∈ [4, 5, 12, 13] ∨ 16 ≤ op.toNat / 8 then 2 else 1
    (len ≤ rest.length + 1 → ∃ i, decode (op :: rest) = .ok (i, rest.drop (len - 1))) ∧
    (rest.length + 1 < len → decode (op :: rest) = .error (.truncated (len - (rest.length + 1))))

/-- Only opcode bytes `0x00` to `0x07` decode to the unassigned row, and that row alone has no handler (30_encoding.md §4). -/
def Obligations.OnlyCodeZeroIsUnassigned : Prop :=
  ∀ op b1 b2 : Byte, (decodeWord op b1 b2 = .invalid ↔ op.toNat < 8) ∧
    ((decodeWord op b1 b2).wf = true ↔ 8 ≤ op.toNat)

/-- Words written out from the encodings of spec/opcode_table.json decode to their instructions. -/
def Obligations.WordsOfTheTableDecode : Prop :=
  decode [0x08#8, 0x12#8, 0x34#8] = .ok (.bneImm 0x1234#16, []) ∧
  decode [0x26#8, 0x7F#8] = .ok (.movImm .b 0x7F#8, []) ∧
  decode [0x69#8, 0x02#8] = .ok (.cmpReg .x .y, []) ∧
  decode [0x47#8] = .ok (.syscall, []) ∧
  decode [0xDE#8, 0x00#8] = .ok (.divReg .b .a, []) ∧
  decode [0xF5#8, 0xFD#8] = .ok (.notReg .flg .flg, [])

/-! ### The step -/

/-- When the bytes at `pc` are those of an instruction, a step of a running machine is that instruction's effect on the state
whose `pc` is past them (30_encoding.md §5). -/
def Obligations.StepRunsTheDecodedInstruction : Prop :=
  ∀ (s : State) (bs : List Byte) (i : Instr),
    s.run = .running → decode bs = .ok (i, []) → codeAt s s.pc bs = true →
    step s = exec i { s with pc := s.pc + BitVec.ofNat 16 bs.length }

/-- When fewer bytes than the instruction needs are in memory, the step halts with `MemoryFault`, `pc` past the bytes
fetched, nothing else changed; with no byte at all `pc` has not moved (60_exceptions.md §3, decision D10). -/
def Obligations.StepHaltsOnAMissingByte : Prop :=
  ∀ (s : State) (bs : List Byte),
    s.run = .running → codeAt s s.pc bs = true → (∀ op, bs.head? = some op → bs.length < instrLength op) →
    s.params.memSize ≤ (s.pc + BitVec.ofNat 16 bs.length).toNat →
    step s = .next { s with pc := s.pc + BitVec.ofNat 16 bs.length, run := .halted (.fault .memoryFault) }

/-- A halted machine takes no step (10_state.md §5; answering it by a fault that carries the outcome is the model's choice,
log entry 2). -/
def Obligations.HaltedMachineTakesNoStep : Prop :=
  ∀ (s : State) (o : RunOutcome), s.run = .halted o → step s = .fault (.halted o)

/-- Every instruction of the table answers a next state in every state, and so does every step of a running machine: the
spec's faults are next states that are halted (60_exceptions.md §1). -/
def Obligations.EveryInstructionAndEveryRunningStepHasANextState : Prop :=
  (∀ (i : Instr) (s : State), ∃ t, exec i s = .next t) ∧
  ∀ s : State, s.run = .running → ∃ t, step s = .next t

/-- The step, which fetches the whole instruction and then runs it, is the step of 30_encoding.md §5, in which each handler
fetches its own operand bytes after the dispatch: the same next state, `pc` at a fault included. -/
def Obligations.StepEqualsTheHandlerByHandlerStep : Prop :=
  ∀ s : State, step s = specStep s

/-- Every step keeps the invariant: parameters and memory well-formed, no unreachable cause in the run state, `A = 0` after
an `Ok` halt (10_state.md §5; 60_exceptions.md §2; 70_reset_and_hazards.md §2). -/
def Obligations.EveryStepKeepsTheMachineInvariant : Prop :=
  ∀ s t : State, s.Inv → step s = .next t → t.Inv

/-- The invariant holds after reset and after every creation with parameters in range. -/
def Obligations.ResetAndCreationMeetTheMachineInvariant : Prop :=
  State.reset.Inv ∧ ∀ p : Params, p.wf = true → (State.initial p).Inv

/-! ### The result of each instruction -/

/-- BNE, BEQ, JMP, both modes: only `pc` changes; the condition is bit 0 of `FLG` alone (40_branch.md §§1 to 3). -/
def Obligations.BranchesReplaceOrKeepPc : Prop :=
  ∀ (s : State) (addr : Addr),
    exec (.bneImm addr) s = .next { s with pc := if s.flg.toNat % 2 = 0 then addr else s.pc } ∧
    exec (.beqImm addr) s = .next { s with pc := if s.flg.toNat % 2 = 1 then addr else s.pc } ∧
    exec (.jmpImm addr) s = .next { s with pc := addr } ∧
    exec .bneReg s = .next { s with pc := if s.flg.toNat % 2 = 0 then s.regAddr else s.pc } ∧
    exec .beqReg s = .next { s with pc := if s.flg.toNat % 2 = 1 then s.regAddr else s.pc } ∧
    exec .jmpReg s = .next { s with pc := s.regAddr }

/-- MOV and NOT, both modes, write the register their selector names and nothing else; as a destination selector 4 is a jump
and selector 5 all of `FLG` (41_move_compare.md §1, 45_logic.md §1; decisions D1, D3, D4). -/
def Obligations.MovAndNotWriteOnlyTheirRegister : Prop :=
  ∀ (s : State) (rd rs : Reg) (imm : Byte),
    (∃ t, exec (.movImm rd imm) s = .next t ∧ WritesOnly rd imm s t) ∧
    (∃ t, exec (.movReg rd rs) s = .next t ∧ WritesOnly rd (s.getReg rs) s t) ∧
    (∃ t, exec (.notImm rd imm) s = .next t ∧ WritesOnly rd (BitVec.ofNat 8 (255 - imm.toNat)) s t) ∧
    (∃ t, exec (.notReg rd rs) s = .next t ∧ WritesOnly rd (BitVec.ofNat 8 (255 - (s.getReg rs).toNat)) s t)

/-- CMP, both modes: bit 0 of `FLG` is set exactly when the operands are equal, bits 7:1 stay, nothing else changes
(41_move_compare.md §2; decisions D1, D6). -/
def Obligations.CmpSetsOnlyTheCompareFlag : Prop :=
  ∀ (s : State) (rs rt : Reg) (imm : Byte),
    (∃ f : Byte, exec (.cmpImm rs imm) s = .next { s with flg := f } ∧
      f.getLsbD 0 = decide (s.getReg rs = imm) ∧ ∀ k, k ≠ 0 → f.getLsbD k = s.flg.getLsbD k) ∧
    (∃ f : Byte, exec (.cmpReg rs rt) s = .next { s with flg := f } ∧
      f.getLsbD 0 = decide (s.getReg rs = s.getReg rt) ∧ ∀ k, k ≠ 0 → f.getLsbD k = s.flg.getLsbD k)

/-- ADD, SUB, MUL, both modes: the result modulo 256 in `A`, nothing else changed, the selector register and `FLG` among it
(44_arithmetic.md §1; decisions D1, D16). -/
def Obligations.AddSubMulPutTheResultModulo256InA : Prop :=
  ∀ (s : State) (rs rt : Reg) (imm : Byte),
    let v := (s.getReg rs).toNat
    let w := (s.getReg rt).toNat
    let n := imm.toNat
    exec (.addImm rs imm) s = .next { s with a := BitVec.ofNat 8 ((v + n) % 256) } ∧
    exec (.addReg rs rt) s = .next { s with a := BitVec.ofNat 8 ((v + w) % 256) } ∧
    exec (.subImm rs imm) s = .next { s with a := BitVec.ofNat 8 (if n ≤ v then v - n else v + 256 - n) } ∧
    exec (.subReg rs rt) s = .next { s with a := BitVec.ofNat 8 (if w ≤ v then v - w else v + 256 - w) } ∧
    exec (.mulImm rs imm) s = .next { s with a := BitVec.ofNat 8 (v * n % 256) } ∧
    exec (.mulReg rs rt) s = .next { s with a := BitVec.ofNat 8 (v * w % 256) }

/-- DIV, both modes: with divisor `d` not 0, the quotient in `A` and the remainder in `B`, from the operands before any write;
with 0, `DivideByZero` and nothing else (44_arithmetic.md §1; decisions D1, D16). -/
def Obligations.DivPutsQuotientInAAndRemainderInB : Prop :=
  ∀ (s : State) (rs rt : Reg) (imm : Byte),
    (imm ≠ 0#8 → ∃ q r : Byte, exec (.divImm rs imm) s = .next { s with a := q, b := r } ∧
      (s.getReg rs).toNat = q.toNat * imm.toNat + r.toNat ∧ r.toNat < imm.toNat) ∧
    (s.getReg rt ≠ 0#8 → ∃ q r : Byte, exec (.divReg rs rt) s = .next { s with a := q, b := r } ∧
      (s.getReg rs).toNat = q.toNat * (s.getReg rt).toNat + r.toNat ∧ r.toNat < (s.getReg rt).toNat) ∧
    exec (.divImm rs 0#8) s = .next { s with run := .halted (.fault .divideByZero) } ∧
    (s.getReg rt = 0#8 → exec (.divReg rs rt) s = .next { s with run := .halted (.fault .divideByZero) })

/-- AND, OR, XOR, both modes: the result bit by bit in `A`, nothing else changed (45_logic.md §1; decisions D1, D5). -/
def Obligations.AndOrXorPutTheBitwiseResultInA : Prop :=
  ∀ (s : State) (rs rt : Reg) (imm : Byte),
    let v := s.getReg rs
    let w := s.getReg rt
    (∃ z : Byte, exec (.andImm rs imm) s = .next { s with a := z } ∧
      ∀ k, z.getLsbD k = (v.getLsbD k && imm.getLsbD k)) ∧
    (∃ z : Byte, exec (.orImm rs imm) s = .next { s with a := z } ∧
      ∀ k, z.getLsbD k = (v.getLsbD k || imm.getLsbD k)) ∧
    (∃ z : Byte, exec (.xorImm rs imm) s = .next { s with a := z } ∧
      ∀ k, z.getLsbD k = (v.getLsbD k ^^ imm.getLsbD k)) ∧
    (∃ z : Byte, exec (.andReg rs rt) s = .next { s with a := z } ∧
      ∀ k, z.getLsbD k = (v.getLsbD k && w.getLsbD k)) ∧
    (∃ z : Byte, exec (.orReg rs rt) s = .next { s with a := z } ∧
      ∀ k, z.getLsbD k = (v.getLsbD k || w.getLsbD k)) ∧
    (∃ z : Byte, exec (.xorReg rs rt) s = .next { s with a := z } ∧
      ∀ k, z.getLsbD k = (v.getLsbD k ^^ w.getLsbD k))

/-- POKE, both modes, at an address in memory: that byte holds the selector register's value, every other address reads as
before, nothing but memory changes; at an address outside, `MemoryFault` and nothing stored (42_memory_access.md §§1 to 3). -/
def Obligations.PokeStoresOneByteAtItsAddress : Prop :=
  ∀ (s : State) (rs : Reg) (addr : Addr),
    (addr.toNat < s.params.memSize → ∃ t, exec (.pokeImm rs addr) s = .next t ∧ t = { s with mem := t.mem } ∧
      t.memRead addr.toNat = .ok (s.getReg rs) ∧ ∀ k, k ≠ addr.toNat → t.memRead k = s.memRead k) ∧
    (s.regAddr.toNat < s.params.memSize → ∃ t, exec (.pokeReg rs) s = .next t ∧ t = { s with mem := t.mem } ∧
      t.memRead s.regAddr.toNat = .ok (s.getReg rs) ∧ ∀ k, k ≠ s.regAddr.toNat → t.memRead k = s.memRead k) ∧
    (s.params.memSize ≤ addr.toNat →
      exec (.pokeImm rs addr) s = .next { s with run := .halted (.fault .memoryFault) }) ∧
    (s.params.memSize ≤ s.regAddr.toNat →
      exec (.pokeReg rs) s = .next { s with run := .halted (.fault .memoryFault) })

/-- PEEK, both modes: the byte at the address in `A`, nothing else changed; at an address outside memory, `MemoryFault` and
`A` unchanged (42_memory_access.md §§1 to 3). -/
def Obligations.PeekLoadsOneByteIntoA : Prop :=
  ∀ (s : State) (addr : Addr),
    (addr.toNat < s.params.memSize → ∃ v, s.memRead addr.toNat = .ok v ∧ exec (.peekImm addr) s = .next { s with a := v }) ∧
    (s.regAddr.toNat < s.params.memSize →
      ∃ v, s.memRead s.regAddr.toNat = .ok v ∧ exec .peekReg s = .next { s with a := v }) ∧
    (s.params.memSize ≤ addr.toNat →
      exec (.peekImm addr) s = .next { s with run := .halted (.fault .memoryFault) }) ∧
    (s.params.memSize ≤ s.regAddr.toNat →
      exec .peekReg s = .next { s with run := .halted (.fault .memoryFault) })

/-- SYSCALL with `A = 0` halts with `Ok` and changes nothing else; with `A` in `3 .. 255` it halts with `UnknownSyscall`
and changes nothing else (43_syscall.md; that Exit is the only `Ok` is decision D12). -/
def Obligations.SyscallExitsOrRejectsTheNumber : Prop :=
  ∀ s : State,
    (s.a = 0#8 → exec .syscall s = .next { s with run := .halted .ok }) ∧
    (3 ≤ s.a.toNat → exec .syscall s = .next { s with run := .halted (.fault .unknownSyscall) })

/-- SYSCALL with `A = 1`: when the bytes from `X:Y` up are those of `bs`, none NUL, and a NUL follows, exactly `bs` is
appended to the console and nothing else changes; when no address from `X:Y` to the end of memory holds a NUL, `MemoryFault`
with nothing written (43_syscall.md; scan before write and no wrap are decision D14). -/
def Obligations.PrintStringWritesTheBytesBeforeTheNul : Prop :=
  ∀ s : State, s.a = 1#8 →
    (∀ bs : List Byte,
      (∀ (k : Nat) (h : k < bs.length), s.memRead (s.regAddr.toNat + k) = .ok bs[k] ∧ bs[k] ≠ 0#8) →
      s.memRead (s.regAddr.toNat + bs.length) = .ok 0#8 →
      exec .syscall s = .next { s with out := s.out ++ bs }) ∧
    ((∀ k, s.regAddr.toNat ≤ k → s.memRead k ≠ .ok 0#8) →
      exec .syscall s = .next { s with run := .halted (.fault .memoryFault) })

/-- SYSCALL with `A = 2`: the decimal numeral of the byte at `X:Y` is appended to the console and nothing else changes; an
address outside memory is `MemoryFault` with nothing written (43_syscall.md; the format is decision D15). -/
def Obligations.PrintNumberWritesTheByteInDecimal : Prop :=
  ∀ s : State, s.a = 2#8 →
    (∀ v, s.memRead s.regAddr.toNat = .ok v → exec .syscall s = .next { s with out := s.out ++ decimal v }) ∧
    (s.params.memSize ≤ s.regAddr.toNat →
      exec .syscall s = .next { s with run := .halted (.fault .memoryFault) })

/-- The numeral of a byte: one to three characters `0x30` to `0x39`, one below 10, two below 100, three from there; read in
base ten it is the byte's value, and it begins with `0x30` only when the value is 0, whose numeral is therefore the one
character `0x30` (43_syscall.md, decision D15; the character codes are the spec's general knowledge G1). -/
def Obligations.DecimalIsTheShortestNumeral : Prop :=
  ∀ v : Byte, 1 ≤ (decimal v).length ∧ (decimal v).length ≤ 3 ∧
    (decimal v).length = (if v.toNat < 10 then 1 else if v.toNat < 100 then 2 else 3) ∧
    (∀ c ∈ decimal v, 0x30 ≤ c.toNat ∧ c.toNat ≤ 0x39) ∧
    (decimal v).foldl (fun n c => n * 10 + (c.toNat - 0x30)) 0 = v.toNat ∧
    ((decimal v).head? = some 0x30#8 ↔ v = 0#8)

/-- Family code 0 halts with `InvalidOpcode` and changes nothing else: that is its effect (30_encoding.md §4). -/
def Obligations.InvalidHaltsWithInvalidOpcode : Prop :=
  ∀ s : State, exec .invalid s = .next { s with run := .halted (.fault .invalidOpcode) }

/-! ### Rules of single instructions, from the bytes in memory to the next state -/

/-- BNE, BEQ, JMP immediate from their bytes: the address literal is fetched taken or not, the branch reads `FLG[0]`, the
selector bits are ignored, a target outside memory faults at the next fetch, and a missing address byte is `MemoryFault`
with `pc` past the bytes fetched (rules R76, R77, R78, which say all of it; behind the ignored selector stands decision D13,
behind `pc` at the fault decision D10). -/
def Obligations.ImmediateBranchesRunFromTheirBytes : Prop :=
  ∀ (s : State) (op hi lo : Byte), s.run = .running →
    let target := BitVec.ofNat 16 (hi.toNat * 256 + lo.toNat)
    (codeAt s s.pc [op, hi, lo] = true →
      (op.toNat / 8 = 1 → step s = .next { s with pc := if s.flg.toNat % 2 = 0 then target else s.pc + 3 }) ∧
      (op.toNat / 8 = 2 → step s = .next { s with pc := if s.flg.toNat % 2 = 1 then target else s.pc + 3 }) ∧
      (op.toNat / 8 = 3 → step s = .next { s with pc := target } ∧
        (s.params.memSize ≤ target.toNat →
          step { s with pc := target } = .next { s with pc := target, run := .halted (.fault .memoryFault) }))) ∧
    (op.toNat / 8 = 1 ∨ op.toNat / 8 = 2 ∨ op.toNat / 8 = 3 →
      (codeAt s s.pc [op] = true → s.params.memSize ≤ (s.pc + 1).toNat →
        step s = .next { s with pc := s.pc + 1, run := .halted (.fault .memoryFault) }) ∧
      (codeAt s s.pc [op, hi] = true → s.params.memSize ≤ (s.pc + 2).toNat →
        step s = .next { s with pc := s.pc + 2, run := .halted (.fault .memoryFault) }))

/-- POKE and PEEK immediate from their bytes: the value stored is read after all three bytes are fetched, so selector 4
stores `(p+3)[7:0]`; PEEK ignores its selector and reads 0 where nothing was stored; a missing address byte or an address
outside memory is `MemoryFault` with no byte and no register but `pc` changed (rules R90, R91, which say all of it; behind
them stand decisions D10, D13, D16). -/
def Obligations.ImmediatePokeAndPeekRunFromTheirBytes : Prop :=
  ∀ (s : State) (op hi lo : Byte), s.run = .running →
    let ea := hi.toNat * 256 + lo.toNat
    (codeAt s s.pc [op, hi, lo] = true →
      (∀ r : Reg, op.toNat = 0x30 + r.selector.toNat → ea < s.params.memSize →
        ∃ t, step s = .next t ∧ t = { s with pc := s.pc + 3, mem := t.mem } ∧
          t.memRead ea = .ok (({ s with pc := s.pc + 3 } : State).getReg r) ∧ ∀ k, k ≠ ea → t.memRead k = s.memRead k) ∧
      (op.toNat / 8 = 7 → ∀ v, s.memRead ea = .ok v → step s = .next { s with pc := s.pc + 3, a := v }) ∧
      (op.toNat / 8 = 7 → ea < s.params.memSize → (∀ c ∈ s.mem, c.1 ≠ ea) →
        step s = .next { s with pc := s.pc + 3, a := 0#8 }) ∧
      (op.toNat / 8 = 6 ∨ op.toNat / 8 = 7 → s.params.memSize ≤ ea →
        step s = .next { s with pc := s.pc + 3, run := .halted (.fault .memoryFault) })) ∧
    (op.toNat / 8 = 6 ∨ op.toNat / 8 = 7 →
      (codeAt s s.pc [op] = true → s.params.memSize ≤ (s.pc + 1).toNat →
        step s = .next { s with pc := s.pc + 1, run := .halted (.fault .memoryFault) }) ∧
      (codeAt s s.pc [op, hi] = true → s.params.memSize ≤ (s.pc + 2).toNat →
        step s = .next { s with pc := s.pc + 2, run := .halted (.fault .memoryFault) }))

/-- ADD, SUB, MUL immediate from their bytes: the register is read after both bytes are fetched, the result modulo 256 goes
to `A`, nothing else but `pc` changes; a missing literal is `MemoryFault` (rules R104, R105, R106, which say all of it; behind
the reading order and `pc` at the fault stand decisions D16, D10). -/
def Obligations.ImmediateAddSubMulRunFromTheirBytes : Prop :=
  ∀ (s : State) (r : Reg) (op imm : Byte), s.run = .running →
    let v := (({ s with pc := s.pc + 2 } : State).getReg r).toNat
    let n := imm.toNat
    (codeAt s s.pc [op, imm] = true →
      (op.toNat = 0x80 + r.selector.toNat → step s = .next { s with pc := s.pc + 2, a := BitVec.ofNat 8 ((v + n) % 256) }) ∧
      (op.toNat = 0x88 + r.selector.toNat →
        step s = .next { s with pc := s.pc + 2, a := BitVec.ofNat 8 ((v + 256 - n) % 256) }) ∧
      (op.toNat = 0x90 + r.selector.toNat →
        step s = .next { s with pc := s.pc + 2, a := BitVec.ofNat 8 (v * n % 256) })) ∧
    (op.toNat / 8 = 16 ∨ op.toNat / 8 = 17 ∨ op.toNat / 8 = 18 →
      codeAt s s.pc [op] = true → s.params.memSize ≤ (s.pc + 1).toNat →
      step s = .next { s with pc := s.pc + 1, run := .halted (.fault .memoryFault) })

/-- DIV immediate from its bytes: floor quotient to `A`, remainder to `B`, both from the register's value before any write;
a zero literal is `DivideByZero` with `pc` past both bytes and `A`, `B` unchanged; a missing literal is `MemoryFault`
(rule R107, which says all of it; behind it stand decisions D16, D10). -/
def Obligations.ImmediateDivRunsFromItsBytes : Prop :=
  ∀ (s : State) (r : Reg) (op imm : Byte), s.run = .running →
    let v := (({ s with pc := s.pc + 2 } : State).getReg r).toNat
    (codeAt s s.pc [op, imm] = true → op.toNat = 0x98 + r.selector.toNat →
      (imm ≠ 0#8 → step s = .next { s with
        pc := s.pc + 2, a := BitVec.ofNat 8 (v / imm.toNat), b := BitVec.ofNat 8 (v % imm.toNat) }) ∧
      (imm = 0#8 → step s = .next { s with pc := s.pc + 2, run := .halted (.fault .divideByZero) })) ∧
    (codeAt s s.pc [op] = true → op.toNat / 8 = 19 → s.params.memSize ≤ (s.pc + 1).toNat →
      step s = .next { s with pc := s.pc + 1, run := .halted (.fault .memoryFault) })

/-- AND, OR immediate from their bytes: the result bit by bit in `A`, nothing else but `pc` changes; a missing literal is
`MemoryFault` (rules R115, R116, which say all of it; behind them stand decisions D16, D10). -/
def Obligations.ImmediateAndOrRunFromTheirBytes : Prop :=
  ∀ (s : State) (r : Reg) (op imm : Byte), s.run = .running →
    let v := ({ s with pc := s.pc + 2 } : State).getReg r
    (codeAt s s.pc [op, imm] = true →
      (op.toNat = 0xA0 + r.selector.toNat → ∃ z : Byte, step s = .next { s with pc := s.pc + 2, a := z } ∧
        ∀ k, z.getLsbD k = (v.getLsbD k && imm.getLsbD k)) ∧
      (op.toNat = 0xA8 + r.selector.toNat → ∃ z : Byte, step s = .next { s with pc := s.pc + 2, a := z } ∧
        ∀ k, z.getLsbD k = (v.getLsbD k || imm.getLsbD k))) ∧
    (op.toNat / 8 = 20 ∨ op.toNat / 8 = 21 → codeAt s s.pc [op] = true → s.params.memSize ≤ (s.pc + 1).toNat →
      step s = .next { s with pc := s.pc + 1, run := .halted (.fault .memoryFault) })

/-- BEQ, JMP and PEEK through the register pair from their one byte: the address is `X * 256 + Y`, the selector bits are
ignored, a jump outside memory faults at the next fetch, PEEK outside memory is `MemoryFault` with `A` unchanged (rules R80,
R81, R93, which say all of it; behind the length of one byte stands decision D2, behind the ignored selector D13). -/
def Obligations.PairBeqJmpAndPeekRunFromTheirByte : Prop :=
  ∀ (s : State) (op : Byte), s.run = .running → codeAt s s.pc [op] = true →
    let pair := s.x.toNat * 256 + s.y.toNat
    (op.toNat / 8 = 10 →
      step s = .next { s with pc := if s.flg.toNat % 2 = 1 then BitVec.ofNat 16 pair else s.pc + 1 }) ∧
    (op.toNat / 8 = 11 → step s = .next { s with pc := BitVec.ofNat 16 pair } ∧
      (s.params.memSize ≤ pair → step { s with pc := BitVec.ofNat 16 pair } =
        .next { s with pc := BitVec.ofNat 16 pair, run := .halted (.fault .memoryFault) })) ∧
    (op.toNat / 8 = 15 →
      (∀ v, s.memRead pair = .ok v → step s = .next { s with pc := s.pc + 1, a := v }) ∧
      (s.params.memSize ≤ pair → step s = .next { s with pc := s.pc + 1, run := .halted (.fault .memoryFault) }))

/-- `InvalidOpcode` is raised by opcode bytes `0x00` to `0x07` and by nothing else; `pc` is one past the byte and everything
else is as at the start of the step (rule R130). -/
def Obligations.InvalidOpcodeIsRaisedByCodeZeroAlone : Prop :=
  ∀ s : State, s.run = .running →
    (∀ op, codeAt s s.pc [op] = true → op.toNat < 8 →
      step s = .next { s with pc := s.pc + 1, run := .halted (.fault .invalidOpcode) }) ∧
    (∀ t, step s = .next t → t.run = .halted (.fault .invalidOpcode) → ∃ op, codeAt s s.pc [op] = true ∧ op.toNat < 8)

/-- `UnknownSyscall` is raised by SYSCALL with `A` in `3 .. 255` and by nothing else; nothing is printed, `pc` is one past
the byte and nothing else has changed (rules R97, R132). -/
def Obligations.UnknownSyscallIsRaisedBySyscallNumbersFromThree : Prop :=
  ∀ s : State, s.run = .running →
    (∀ op, codeAt s s.pc [op] = true → op.toNat / 8 = 8 → 3 ≤ s.a.toNat →
      step s = .next { s with pc := s.pc + 1, run := .halted (.fault .unknownSyscall) }) ∧
    (∀ t, step s = .next t → t.run = .halted (.fault .unknownSyscall) →
      3 ≤ s.a.toNat ∧ ∃ op, codeAt s s.pc [op] = true ∧ op.toNat / 8 = 8)

/-! ### Rules about the whole machine -/

/-- A step writes no register but `pc` that its instruction's row of the table in 10_state.md §4 does not list: so `FLG`
changes only in CMP and in MOV or NOT to selector 5, `B` only in DIV and in MOV or NOT to selector 6, `X`, `Y`, `SPA`, `SPB`
only in MOV or NOT to them. -/
def Obligations.StepWritesOnlyTheRegistersOfItsRow : Prop :=
  ∀ (s t : State) (i : Instr) (r : Reg),
    step s = .next t → currentInstr s = some i → r ≠ .pc → i.mayWrite r = false → t.getReg r = s.getReg r

/-- A register that an instruction's row of the table in 10_state.md §4 lists under neither reads nor writes has no
influence on it: changing that register beforehand changes the next state in that register and nowhere else. Selector 4 is
left out, since every step reads `pc` to fetch. -/
def Obligations.RegistersOutsideItsRowDoNotInfluenceAnInstruction : Prop :=
  ∀ (i : Instr) (s t : State) (r : Reg) (v : Byte),
    r ≠ .pc → i.mayRead r = false → i.mayWrite r = false → exec i s = .next t →
    exec i (s.setReg r v) = .next (t.setReg r v)

/-- Only POKE changes memory, and only the byte at its own address: the literal, or the register pair before the step
(20_memory.md §5, 42_memory_access.md §1). -/
def Obligations.OnlyPokeChangesMemoryAndOnlyItsByte : Prop :=
  ∀ (s t : State) (k : Nat),
    step s = .next t →
    (∀ r addr, currentInstr s = some (.pokeImm r addr) → k ≠ addr.toNat) →
    (∀ r, currentInstr s = some (.pokeReg r) → k ≠ s.regAddr.toNat) →
    t.memRead k = s.memRead k

/-- The console only grows, and only in SYSCALL with `A` 1 or 2 (10_state.md §5). -/
def Obligations.ConsoleOnlyGrowsAndOnlyInPrintSyscalls : Prop :=
  ∀ s t : State, step s = .next t →
    (∃ bs, t.out = s.out ++ bs) ∧
    (t.out ≠ s.out → currentInstr s = some .syscall ∧ (s.a = 1#8 ∨ s.a = 2#8))

/-- The only way into `Halted(Ok)` is SYSCALL with `A = 0`, and that step changes only `pc` and the run state
(43_syscall.md, decision D12). -/
def Obligations.HaltedOkIsReachedOnlyByExit : Prop :=
  ∀ s t : State, step s = .next t → t.run = .halted .ok →
    currentInstr s = some .syscall ∧ s.a = 0#8 ∧ t = { s with pc := s.pc + 1, run := .halted .ok }

/-- Faults are precise in everything but `pc`: a step that faults changes only the run state and `pc`, which is past every
byte fetched: all of the instruction's, or fewer where the fetch faulted (60_exceptions.md §3, decision D10). -/
def Obligations.FaultingStepChangesOnlyPcAndRunState : Prop :=
  ∀ (s t : State) (c : Cause), step s = .next t → t.run = .halted (.fault c) →
    ∃ n : Nat, t = { s with pc := s.pc + BitVec.ofNat 16 n, run := .halted (.fault c) } ∧
      (∀ i, currentInstr s = some i → n = (encode i).length) ∧
      (currentInstr s = none → n ≤ 2 ∧ c = .memoryFault)

/-- Which instruction can raise which fault once it has been fetched (60_exceptions.md §3). -/
def Obligations.EachInstructionRaisesOnlyItsOwnFaults : Prop :=
  ∀ (i : Instr) (s t : State) (c : Cause), s.run = .running → exec i s = .next t → t.run = .halted (.fault c) →
    (c = .invalidOpcode ∧ i = .invalid) ∨
    (c = .divideByZero ∧ ((∃ r imm, i = .divImm r imm) ∨ ∃ r q, i = .divReg r q)) ∨
    (c = .unknownSyscall ∧ i = .syscall) ∨
    (c = .memoryFault ∧ (i = .syscall ∨ (∃ r addr, i = .pokeImm r addr) ∨ (∃ r, i = .pokeReg r) ∨
      (∃ addr, i = .peekImm addr) ∨ i = .peekReg))

/-- Where each instruction leaves `pc` when no fault is raised: the target of a transfer taken, the zero-extended byte of a
write through selector 4, otherwise `p` plus the instruction's length modulo 65536 (10_state.md §2, decisions D3, D9). -/
def Obligations.PcAfterAStepWithoutFault : Prop :=
  ∀ (s t : State) (i : Instr), step s = .next t → currentInstr s = some i → (∀ c, t.run ≠ .halted (.fault c)) →
    let after := s.pc + BitVec.ofNat 16 (encode i).length
    t.pc = match i with
      | .bneImm addr => if s.flg.toNat % 2 = 0 then addr else after
      | .beqImm addr => if s.flg.toNat % 2 = 1 then addr else after
      | .jmpImm addr => addr
      | .bneReg => if s.flg.toNat % 2 = 0 then s.regAddr else after
      | .beqReg => if s.flg.toNat % 2 = 1 then s.regAddr else after
      | .jmpReg => s.regAddr
      | .movImm .pc imm => BitVec.ofNat 16 imm.toNat
      | .notImm .pc imm => BitVec.ofNat 16 (255 - imm.toNat)
      | .movReg .pc rs => BitVec.ofNat 16 (({ s with pc := after } : State).getReg rs).toNat
      | .notReg .pc rs => BitVec.ofNat 16 (255 - (({ s with pc := after } : State).getReg rs).toNat)
      | _ => after

/-- A store into the instruction stream is what the next fetch sees. After POKE, either mode, a fetch at the address stored to
gets the byte stored; and when the address is that of byte `k` of the instruction that follows, its opcode byte or an operand
byte, the next step runs the instruction with that byte in it, not the one that stood there before (20_memory.md §8,
70_reset_and_hazards.md §3; program P4). `s` is the state after the POKE is fetched. -/
def Obligations.StoreIntoTheInstructionStreamIsFetchedNext : Prop :=
  ∀ (s t : State) (r : Reg) (addr : Addr), addr.toNat < s.params.memSize →
    exec (.pokeImm r addr) s = .next t ∨ (s.regAddr = addr ∧ exec (.pokeReg r) s = .next t) →
    fetch8 { t with pc := addr } = .got (s.getReg r) { t with pc := addr + 1 } ∧
    ∀ (bs : List Byte) (k : Nat) (i : Instr),
      s.run = .running → codeAt s s.pc bs = true → k < bs.length → addr = s.pc + BitVec.ofNat 16 k →
      decode (bs.set k (s.getReg r)) = .ok (i, []) →
      step t = exec i { t with pc := s.pc + BitVec.ofNat 16 bs.length }

/-- No step changes the creation parameters, and the two causes that no instruction raises, `LoadError` and
`InvalidRegisterSelector`, are never in the run state after a step (00_scope.md §4, 60_exceptions.md §2). -/
def Obligations.StepKeepsParametersAndNeverRaisesHostOrSelectorFaults : Prop :=
  ∀ s t : State, step s = .next t → t.params = s.params ∧
    t.run ≠ .halted (.fault .loadError) ∧ t.run ≠ .halted (.fault .invalidRegisterSelector)

/-! ### The host's operations -/

/-- `create`: in range, memory reads zero everywhere, `pc` is `ENTRY`, `sp` is `SP_INIT`, the machine runs, the console is
empty, and `A`, `B`, `X`, `Y`, `FLG` are 0 (decision D7); out of range it is refused. `State.reset` is the creation with
`MEMSIZE` 1024, `ENTRY` 0 (decision D8) and `SP_INIT` 0, the last the model's choice, log entry 1 (10_state.md §6,
70_reset_and_hazards.md §1). -/
def Obligations.CreateGivesTheResetStateOfItsParameters : Prop :=
  (∀ p : Params, 1 ≤ p.memSize ∧ p.memSize ≤ 65536 → ∃ s, create p = .ok s ∧ s.params = p ∧
    (∀ k, k < p.memSize → s.memRead k = .ok 0#8) ∧ s.pc = p.entry ∧ s.sp = p.spInit ∧
    s.a = 0#8 ∧ s.b = 0#8 ∧ s.x = 0#8 ∧ s.y = 0#8 ∧ s.flg = 0#8 ∧ s.run = .running ∧ s.out = []) ∧
  (∀ p : Params, p.memSize = 0 ∨ 65536 < p.memSize → create p = .error .badMemSize) ∧
  create { memSize := 1024, spInit := 0#16, entry := 0#16 } = .ok State.reset

/-- `load` copies the image to address 0 up and leaves the rest of memory and everything else; an image longer than memory
is `LoadError` and nothing is copied (70_reset_and_hazards.md §1). -/
def Obligations.LoadCopiesTheImageToAddressZero : Prop :=
  ∀ (s : State) (image : List Byte),
    (image.length ≤ s.params.memSize → ∃ t, load image s = .ok t ∧ t = { s with mem := t.mem } ∧
      (∀ (k : Nat) (h : k < image.length), t.memRead k = .ok image[k]) ∧
      ∀ k, image.length ≤ k → t.memRead k = s.memRead k) ∧
    (s.params.memSize < image.length → load image s = .error .loadError)

/-- The order of the host's operations: `load` only straight after `create`; a failed `load` leaves the machine as it was
and forbids `run` (70_reset_and_hazards.md §1, decisions D18, D22). -/
def Obligations.HostOperationsOutOfOrderAreRefused : Prop :=
  ∀ (h : Session) (image : List Byte) (budget : Nat),
    (h.phase ≠ .created → h.load image = .error .outOfOrder) ∧
    (h.phase = .created → h.machine.params.memSize < image.length →
      h.load image = .ok { phase := .loadFailed .loadError, machine := h.machine } ∧
      ({ phase := .loadFailed .loadError, machine := h.machine } : Session).run budget = .error .outOfOrder) ∧
    (∀ o, (∀ c, h.phase ≠ .loadFailed c) → h.machine.run = .halted o →
      h.run budget = .ok (.finished o h.machine, { phase := .ran, machine := h.machine }))

/-- The run loop: a run is never stuck; an outcome reached within a budget is the one reached within any greater budget, it
is the run state of the final state, and the machine passes through that state (70_reset_and_hazards.md §§1, 2; the budget
is the runner's, decision D17). -/
def Obligations.RunOutcomeDoesNotDependOnTheBudget : Prop :=
  (∀ n s u, runFor n s ≠ .stuck u) ∧
  ∀ (n m : Nat) (s t : State) (o : RunOutcome), n ≤ m → runFor n s = .finished o t →
    runFor m s = .finished o t ∧ t.run = .halted o ∧ Reaches s t

/-- After a run that ends with `Ok`, `result()` is 0 and the last instruction was SYSCALL (70_reset_and_hazards.md §3). -/
def Obligations.ResultAfterAnOkRunIsZero : Prop :=
  ∀ (n : Nat) (s t : State), s.run = .running → runFor n s = .finished .ok t →
    result t = 0#8 ∧ ∃ u, Reaches s u ∧ step u = .next t ∧ currentInstr u = some .syscall

/-- From creation and load, whatever the image, every state the machine passes through meets the invariant. -/
def Obligations.EveryStateOfALoadedMachineMeetsTheInvariant : Prop :=
  ∀ (p : Params) (image : List Byte) (s t u : State),
    create p = .ok s → load image s = .ok t → Reaches t u → u.Inv

/-- `withFetchWord` does what it is for: with room for three bytes at `pc`, the next step of a running machine runs the
instruction the decoder reads from the word, and registers, run state and console are untouched (the model's stand-in for
`load`, log entry 4). -/
def Obligations.FetchWordIsRunByTheNextStep : Prop :=
  ∀ (s : State) (nbits w : Nat) (i : Instr), s.run = .running → s.pc.toNat + 3 ≤ s.params.memSize →
    s.params.memSize ≤ 65536 → decodeTableWord nbits w = some i →
    s.withFetchWord nbits w = { s with mem := (s.withFetchWord nbits w).mem } ∧
    step (s.withFetchWord nbits w) =
      exec i { s.withFetchWord nbits w with pc := s.pc + BitVec.ofNat 16 (encode i).length }
end

