-- ==== Sys2Proof/Laws/Memory.lean ====
section
/-! SUPPORT. Memory as data: a read after a write, and the canonical form that every memory operation keeps. -/

namespace Sys2Proof.Machine

/-! ### Reads -/

@[simp] theorem Memory.read_nil (n : Nat) : Memory.read [] n = Memory.background := rfl

theorem Memory.read_cons (k : Nat) (v : Byte) (m : Memory) (n : Nat) :
    Memory.read ((k, v) :: m) n = if k = n then v else Memory.read m n := rfl

theorem Memory.read_of_absent {m : Memory} {n : Nat} (h : ∀ c ∈ m, c.1 ≠ n) :
    Memory.read m n = Memory.background := by
  induction m with
  | nil => rfl
  | cons c m ih =>
    rw [Memory.read_cons, if_neg (h c (List.mem_cons_self ..))]
    exact ih fun d hd => h d (List.mem_cons_of_mem _ hd)

theorem Memory.erase_absent (m : Memory) (n : Nat) : ∀ c ∈ Memory.erase m n, c.1 ≠ n := by
  intro c hc
  simpa using (List.mem_filter.mp hc).2

theorem Memory.read_erase_same (m : Memory) (n : Nat) : Memory.read (Memory.erase m n) n = Memory.background :=
  Memory.read_of_absent (Memory.erase_absent m n)

theorem Memory.read_erase_other (m : Memory) {n k : Nat} (h : k ≠ n) :
    Memory.read (Memory.erase m n) k = Memory.read m k := by
  induction m with
  | nil => rfl
  | cons c m ih =>
    obtain ⟨j, v⟩ := c
    by_cases hj : j = n
    · have e : Memory.erase ((j, v) :: m) n = Memory.erase m n := by simp [Memory.erase, hj]
      rw [e, ih, Memory.read_cons, if_neg (by omega)]
    · have e : Memory.erase ((j, v) :: m) n = (j, v) :: Memory.erase m n := by simp [Memory.erase, hj]
      rw [e, Memory.read_cons, Memory.read_cons, ih]

theorem Memory.read_insert_same (m : Memory) (n : Nat) (v : Byte) (h : ∀ c ∈ m, c.1 ≠ n) :
    Memory.read (Memory.insert m n v) n = v := by
  induction m with
  | nil => simp [Memory.insert, Memory.read_cons]
  | cons c m ih =>
    obtain ⟨j, w⟩ := c
    simp only [Memory.insert]
    split
    · simp [Memory.read_cons]
    · rw [Memory.read_cons, if_neg (h (j, w) (List.mem_cons_self ..))]
      exact ih fun d hd => h d (List.mem_cons_of_mem _ hd)

theorem Memory.read_insert_other (m : Memory) (n : Nat) (v : Byte) {k : Nat} (h : k ≠ n) :
    Memory.read (Memory.insert m n v) k = Memory.read m k := by
  induction m with
  | nil => simp [Memory.insert, Memory.read_cons, Ne.symm h]
  | cons c m ih =>
    obtain ⟨j, w⟩ := c
    simp only [Memory.insert]
    split
    · rw [Memory.read_cons, if_neg (Ne.symm h)]
    · rw [Memory.read_cons, Memory.read_cons, ih]

theorem Memory.read_write_same (m : Memory) (n : Nat) (v : Byte) : Memory.read (Memory.write m n v) n = v := by
  unfold Memory.write
  split
  · next h => rw [Memory.read_erase_same, h]
  · exact Memory.read_insert_same _ n v (Memory.erase_absent m n)

theorem Memory.read_write_other (m : Memory) (n : Nat) (v : Byte) {k : Nat} (h : k ≠ n) :
    Memory.read (Memory.write m n v) k = Memory.read m k := by
  unfold Memory.write
  split
  · exact Memory.read_erase_other m h
  · rw [Memory.read_insert_other _ n v h, Memory.read_erase_other m h]

/-! ### The canonical form -/

theorem Memory.wf_nil : Memory.wf [] := by
  refine ⟨List.Pairwise.nil, ?_⟩
  simp

theorem Memory.mem_erase {m : Memory} {n : Nat} {c : Host.Cell} (h : c ∈ Memory.erase m n) : c ∈ m :=
  (List.mem_filter.mp h).1

theorem Memory.mem_insert {m : Memory} {n : Nat} {v : Byte} {c : Host.Cell} (h : c ∈ Memory.insert m n v) :
    c = (n, v) ∨ c ∈ m := by
  induction m with
  | nil => simpa [Memory.insert] using h
  | cons d m ih =>
    simp only [Memory.insert] at h
    split at h
    · simpa using h
    · obtain rfl | h := List.mem_cons.mp h
      · exact .inr (List.mem_cons_self ..)
      · exact (ih h).imp id (List.mem_cons_of_mem _)

theorem Memory.mem_write {m : Memory} {n : Nat} {v : Byte} {c : Host.Cell} (h : c ∈ Memory.write m n v) :
    c = (n, v) ∨ c ∈ m := by
  unfold Memory.write at h
  split at h
  · exact .inr (Memory.mem_erase h)
  · exact (Memory.mem_insert h).imp id Memory.mem_erase

theorem Memory.erase_wf {m : Memory} (n : Nat) (h : Memory.wf m) : Memory.wf (Memory.erase m n) :=
  ⟨h.1.filter _, fun c hc => h.2 c (Memory.mem_erase hc)⟩

theorem Memory.insert_sorted {m : Memory} {n : Nat} (v : Byte) (h : m.Pairwise fun c d => c.1 < d.1)
    (ha : ∀ c ∈ m, c.1 ≠ n) : (Memory.insert m n v).Pairwise fun c d => c.1 < d.1 := by
  induction m with
  | nil => simp [Memory.insert]
  | cons d m ih =>
    obtain ⟨hd, hm⟩ := List.pairwise_cons.mp h
    simp only [Memory.insert]
    split
    · next hlt =>
      refine List.pairwise_cons.mpr ⟨?_, h⟩
      intro c hc
      obtain rfl | hc := List.mem_cons.mp hc
      · exact hlt
      · exact Nat.lt_trans hlt (hd c hc)
    · next hge =>
      refine List.pairwise_cons.mpr ⟨?_, ih hm fun c hc => ha c (List.mem_cons_of_mem _ hc)⟩
      intro c hc
      obtain rfl | hc := Memory.mem_insert hc
      · have := ha d (List.mem_cons_self ..)
        show d.1 < n
        omega
      · exact hd c hc

/-- Every write keeps the canonical form. -/
theorem Memory.write_wf {m : Memory} (n : Nat) (v : Byte) (h : Memory.wf m) : Memory.wf (Memory.write m n v) := by
  unfold Memory.write
  split
  · exact Memory.erase_wf n h
  · next hv =>
    have he := Memory.erase_wf n h
    refine ⟨Memory.insert_sorted v he.1 (Memory.erase_absent m n), ?_⟩
    intro c hc
    obtain rfl | hc := Memory.mem_insert hc
    · exact hv
    · exact he.2 c hc

/-- Every copy keeps the canonical form. -/
theorem Memory.writeBytes_wf {m : Memory} (n : Nat) (vs : List Byte) (h : Memory.wf m) :
    Memory.wf (Memory.writeBytes m n vs) := by
  induction vs generalizing m n with
  | nil => exact h
  | cons v vs ih => exact ih (n + 1) (Memory.write_wf n v h)

/-- A copy adds entries only in its own range. -/
theorem Memory.mem_writeBytes {m : Memory} {n : Nat} {vs : List Byte} {c : Host.Cell}
    (h : c ∈ Memory.writeBytes m n vs) : (n ≤ c.1 ∧ c.1 < n + vs.length) ∨ c ∈ m := by
  induction vs generalizing m n with
  | nil => exact .inr h
  | cons v vs ih =>
    obtain h | h := ih h
    · simp only [List.length_cons]; left; omega
    · obtain rfl | h := Memory.mem_write h
      · left; simp
      · exact .inr h

end Sys2Proof.Machine
end

