-- ==== Sys2Proof/Laws/Access.lean ====
section
/-! SUPPORT. What the access primitives and the shared operations over them can do: one lemma each, which says everything
the operation can answer. -/

namespace Sys2Proof.Machine

/-! ### MemRead and MemWrite -/

theorem memRead_outside {s : State} {n : Nat} (h : s.params.memSize ≤ n) : s.memRead n = .error .memoryFault :=
  if_pos h

theorem memRead_inside {s : State} {n : Nat} (h : n < s.params.memSize) : s.memRead n = .ok (Memory.read s.mem n) :=
  if_neg (by omega)

theorem memRead_ok_iff {s : State} {n : Nat} {v : Byte} :
    s.memRead n = .ok v ↔ n < s.params.memSize ∧ Memory.read s.mem n = v := by
  unfold State.memRead
  split
  · simp; omega
  · simp; omega

theorem memRead_error_iff {s : State} {n : Nat} {c : Cause} :
    s.memRead n = .error c ↔ s.params.memSize ≤ n ∧ c = .memoryFault := by
  unfold State.memRead
  split
  · next h => simp [h, eq_comm]
  · next h => simp [h]

/-- A read looks at memory and its size, nothing else. -/
theorem memRead_congr {s t : State} (hm : t.mem = s.mem) (hp : t.params = s.params) (n : Nat) :
    t.memRead n = s.memRead n := by
  simp only [State.memRead, hm, hp]

theorem memWrite_outside {s : State} {n : Nat} {v : Byte} (h : s.params.memSize ≤ n) :
    s.memWrite n v = .error .memoryFault :=
  if_pos h

theorem memWrite_inside {s : State} {n : Nat} {v : Byte} (h : n < s.params.memSize) :
    s.memWrite n v = .ok { s with mem := Memory.write s.mem n v } :=
  if_neg (by omega)

theorem memWrite_ok_iff {s t : State} {n : Nat} {v : Byte} :
    s.memWrite n v = .ok t ↔ n < s.params.memSize ∧ t = { s with mem := Memory.write s.mem n v } := by
  unfold State.memWrite
  split
  · simp; omega
  · next h => simp [eq_comm]; omega

theorem memWrite_error_iff {s : State} {n : Nat} {v : Byte} {c : Cause} :
    s.memWrite n v = .error c ↔ s.params.memSize ≤ n ∧ c = .memoryFault := by
  unfold State.memWrite
  split
  · next h => simp [h, eq_comm]
  · next h => simp [h]

/-! ### The shared parts of the meanings -/

theorem storeByte_next {ea : Addr} {v : Byte} {s t : State} (h : storeByte ea v s = .next t) :
    (ea.toNat < s.params.memSize ∧ t = { s with mem := Memory.write s.mem ea.toNat v }) ∨
    (s.params.memSize ≤ ea.toNat ∧ t = raise .memoryFault s) := by
  unfold storeByte at h
  split at h
  · next c hc =>
    obtain ⟨hle, rfl⟩ := memWrite_error_iff.mp hc
    exact .inr ⟨hle, by simpa [eq_comm] using h⟩
  · next u hu =>
    obtain ⟨hlt, rfl⟩ := memWrite_ok_iff.mp hu
    exact .inl ⟨hlt, by simpa [eq_comm] using h⟩

theorem loadA_next {ea : Addr} {s t : State} (h : loadA ea s = .next t) :
    (ea.toNat < s.params.memSize ∧ t = { s with a := Memory.read s.mem ea.toNat }) ∨
    (s.params.memSize ≤ ea.toNat ∧ t = raise .memoryFault s) := by
  unfold loadA at h
  split at h
  · next c hc =>
    obtain ⟨hle, rfl⟩ := memRead_error_iff.mp hc
    exact .inr ⟨hle, by simpa [eq_comm] using h⟩
  · next v hv =>
    obtain ⟨hlt, rfl⟩ := memRead_ok_iff.mp hv
    exact .inl ⟨hlt, by simpa [eq_comm] using h⟩

theorem divide_next {v w : Byte} {s t : State} (h : divide v w s = .next t) :
    (w ≠ 0#8 ∧ t = { s with a := aluDiv v w, b := aluMod v w }) ∨ (w = 0#8 ∧ t = raise .divideByZero s) := by
  unfold divide at h
  split at h
  · next hw => exact .inr ⟨hw, by simpa [eq_comm] using h⟩
  · next hw => exact .inl ⟨hw, by simpa [eq_comm] using h⟩

theorem digitChar_toNat {d : Nat} (h : d < 10) : (digitChar d).toNat = 0x30 + d := by
  simp only [digitChar, BitVec.toNat_ofNat]
  omega

theorem digitChar_eq_zero {d : Nat} (h : d < 10) : digitChar d = 0x30#8 ↔ d = 0 := by
  rw [← BitVec.toNat_inj, digitChar_toNat h]
  simp

/-- A scan that fails has met the end of memory. -/
theorem scanString_error {s : State} {n addr : Nat} {c : Cause} (h : scanString s n addr = .error c) :
    c = .memoryFault := by
  induction n generalizing addr with
  | zero => simpa [scanString, eq_comm] using h
  | succ n ih =>
    unfold scanString at h
    split at h
    · next d hd =>
      obtain ⟨-, rfl⟩ := memRead_error_iff.mp hd
      simpa [eq_comm] using h
    · split at h
      · simp at h
      · split at h
        · next e he =>
          obtain rfl : e = c := by simpa using h
          exact ih he
        · simp at h

theorem printString_cases (s : State) :
    (∃ bs, printString s = consoleWrite bs s) ∨ printString s = raise .memoryFault s := by
  unfold printString readString
  split
  · next c hc => rw [scanString_error hc]; exact .inr rfl
  · next bs _ => exact .inl ⟨bs, rfl⟩

theorem printNumber_cases (s : State) :
    (s.regAddr.toNat < s.params.memSize ∧
      printNumber s = consoleWrite (decimal (Memory.read s.mem s.regAddr.toNat)) s) ∨
    (s.params.memSize ≤ s.regAddr.toNat ∧ printNumber s = raise .memoryFault s) := by
  unfold printNumber pairAddress
  split
  · next c hc =>
    obtain ⟨hle, rfl⟩ := memRead_error_iff.mp hc
    exact .inr ⟨hle, rfl⟩
  · next v hv =>
    obtain ⟨hlt, rfl⟩ := memRead_ok_iff.mp hv
    exact .inl ⟨hlt, rfl⟩

theorem execSyscall_next {s t : State} (h : execSyscall s = .next t) :
    (s.a = 0#8 ∧ t = haltOk s) ∨ (s.a = 1#8 ∧ t = printString s) ∨ (s.a = 2#8 ∧ t = printNumber s) ∨
    (s.a ≠ 0#8 ∧ s.a ≠ 1#8 ∧ s.a ≠ 2#8 ∧ t = raise .unknownSyscall s) := by
  unfold execSyscall at h
  split at h
  · next h0 => exact .inl ⟨h0, by simpa [eq_comm] using h⟩
  · next h0 =>
    split at h
    · next h1 => exact .inr (.inl ⟨h1, by simpa [eq_comm] using h⟩)
    · next h1 =>
      split at h
      · next h2 => exact .inr (.inr (.inl ⟨h2, by simpa [eq_comm] using h⟩))
      · next h2 => exact .inr (.inr (.inr ⟨h0, h1, h2, by simpa [eq_comm] using h⟩))

end Sys2Proof.Machine
end

