-- ==== Sys2Proof/Laws/Bits.lean ====
section
/-! SUPPORT. The byte halves of a 16-bit word, the fields of an opcode byte and the selector table, in both directions;
each field as a number first, then the round trips by arithmetic. -/

namespace Sys2Proof

/-! ### As numbers -/

theorem wordOfBytes_toNat (hi lo : Byte) : (wordOfBytes hi lo).toNat = hi.toNat * 256 + lo.toNat := by
  simp only [wordOfBytes, BitVec.toNat_append]
  rw [Nat.shiftLeft_eq, Nat.mul_comm, ← Nat.two_pow_add_eq_or_of_lt lo.isLt]

theorem lowByte_toNat (w : Addr) : (lowByte w).toNat = w.toNat % 256 := by
  simp [lowByte, BitVec.extractLsb'_toNat]

theorem highByte_toNat (w : Addr) : (highByte w).toNat = w.toNat / 256 := by
  have h := w.isLt
  simp only [highByte, BitVec.extractLsb'_toNat, Nat.shiftRight_eq_div_pow]
  omega

theorem opcodeByte_toNat (fam : BitVec 5) (sel : BitVec 3) :
    (opcodeByte fam sel).toNat = fam.toNat * 8 + sel.toNat := by
  simp only [opcodeByte, BitVec.toNat_append]
  rw [Nat.shiftLeft_eq, Nat.mul_comm, ← Nat.two_pow_add_eq_or_of_lt sel.isLt]

theorem familyCode_toNat (op : Byte) : (familyCode op).toNat = op.toNat / 8 := by
  have h := op.isLt
  simp only [familyCode, BitVec.extractLsb'_toNat, Nat.shiftRight_eq_div_pow]
  omega

theorem selectorField_toNat (b : Byte) : (selectorField b).toNat = b.toNat % 8 := by
  simp [selectorField, BitVec.extractLsb'_toNat]

/-! ### Round trips -/

@[simp] theorem highByte_wordOfBytes (hi lo : Byte) : highByte (wordOfBytes hi lo) = hi := by
  have := lo.isLt
  apply BitVec.eq_of_toNat_eq
  rw [highByte_toNat, wordOfBytes_toNat]
  omega

@[simp] theorem lowByte_wordOfBytes (hi lo : Byte) : lowByte (wordOfBytes hi lo) = lo := by
  have := lo.isLt
  apply BitVec.eq_of_toNat_eq
  rw [lowByte_toNat, wordOfBytes_toNat]
  omega

@[simp] theorem wordOfBytes_high_low (w : Addr) : wordOfBytes (highByte w) (lowByte w) = w := by
  apply BitVec.eq_of_toNat_eq
  rw [wordOfBytes_toNat, highByte_toNat, lowByte_toNat]
  omega

@[simp] theorem familyCode_opcodeByte (fam : BitVec 5) (sel : BitVec 3) : familyCode (opcodeByte fam sel) = fam := by
  have := sel.isLt
  apply BitVec.eq_of_toNat_eq
  rw [familyCode_toNat, opcodeByte_toNat]
  omega

@[simp] theorem selectorField_opcodeByte (fam : BitVec 5) (sel : BitVec 3) :
    selectorField (opcodeByte fam sel) = sel := by
  have := sel.isLt
  apply BitVec.eq_of_toNat_eq
  rw [selectorField_toNat, opcodeByte_toNat]
  omega

@[simp] theorem opcodeByte_fields (op : Byte) : opcodeByte (familyCode op) (selectorField op) = op := by
  apply BitVec.eq_of_toNat_eq
  rw [opcodeByte_toNat, familyCode_toNat, selectorField_toNat]
  omega

@[simp] theorem selectorField_sourceByte (r : Reg) : selectorField (sourceByte r) = r.selector := by
  cases r <;> rfl

@[simp] theorem ofSelector_selector (r : Reg) : Reg.ofSelector r.selector = r := by
  cases r <;> rfl

@[simp] theorem selector_ofSelector (n : BitVec 3) : (Reg.ofSelector n).selector = n := by
  revert n; decide

/-! ### Lengths -/

theorem instrLength_opcodeByte (fam : BitVec 5) (sel : BitVec 3) :
    instrLength (opcodeByte fam sel) = (formatOf fam).length := by
  rw [instrLength, familyCode_opcodeByte]

theorem instrLength_pos (op : Byte) : 1 ≤ instrLength op := by
  unfold instrLength
  cases formatOf (familyCode op) <;> decide

theorem instrLength_le (op : Byte) : instrLength op ≤ 3 := by
  unfold instrLength
  cases formatOf (familyCode op) <;> decide

end Sys2Proof
end

