-- ==== Sys2Proof/Laws/State.lean ====
section
/-! SUPPORT. One lemma per field per update of the state, each true by unfolding: no later proof unfolds an update. -/

namespace Sys2Proof.Machine

/-! ### The state after `create` -/

@[simp] theorem initial_params (p : Params) : (State.initial p).params = p := rfl
@[simp] theorem initial_a (p : Params) : (State.initial p).a = 0#8 := rfl
@[simp] theorem initial_b (p : Params) : (State.initial p).b = 0#8 := rfl
@[simp] theorem initial_x (p : Params) : (State.initial p).x = 0#8 := rfl
@[simp] theorem initial_y (p : Params) : (State.initial p).y = 0#8 := rfl
@[simp] theorem initial_flg (p : Params) : (State.initial p).flg = 0#8 := rfl
@[simp] theorem initial_pc (p : Params) : (State.initial p).pc = p.entry := rfl
@[simp] theorem initial_sp (p : Params) : (State.initial p).sp = p.spInit := rfl
@[simp] theorem initial_mem (p : Params) : (State.initial p).mem = [] := rfl
@[simp] theorem initial_run (p : Params) : (State.initial p).run = .running := rfl
@[simp] theorem initial_out (p : Params) : (State.initial p).out = [] := rfl

/-! ### `advance` -/

@[simp] theorem advance_params (s : State) (n : Nat) : (s.advance n).params = s.params := rfl
@[simp] theorem advance_a (s : State) (n : Nat) : (s.advance n).a = s.a := rfl
@[simp] theorem advance_b (s : State) (n : Nat) : (s.advance n).b = s.b := rfl
@[simp] theorem advance_x (s : State) (n : Nat) : (s.advance n).x = s.x := rfl
@[simp] theorem advance_y (s : State) (n : Nat) : (s.advance n).y = s.y := rfl
@[simp] theorem advance_flg (s : State) (n : Nat) : (s.advance n).flg = s.flg := rfl
@[simp] theorem advance_pc (s : State) (n : Nat) : (s.advance n).pc = s.pc + BitVec.ofNat 16 n := rfl
@[simp] theorem advance_sp (s : State) (n : Nat) : (s.advance n).sp = s.sp := rfl
@[simp] theorem advance_mem (s : State) (n : Nat) : (s.advance n).mem = s.mem := rfl
@[simp] theorem advance_run (s : State) (n : Nat) : (s.advance n).run = s.run := rfl
@[simp] theorem advance_out (s : State) (n : Nat) : (s.advance n).out = s.out := rfl

@[simp] theorem advance_zero (s : State) : s.advance 0 = s := by
  simp [State.advance]

@[simp] theorem advance_advance (s : State) (m n : Nat) : (s.advance m).advance n = s.advance (m + n) := by
  simp only [State.advance, State.mk.injEq, true_and, and_true]
  rw [BitVec.add_assoc, ← BitVec.ofNat_add]

/-! ### `raise` -/

@[simp] theorem raise_params (c : Cause) (s : State) : (raise c s).params = s.params := rfl
@[simp] theorem raise_a (c : Cause) (s : State) : (raise c s).a = s.a := rfl
@[simp] theorem raise_b (c : Cause) (s : State) : (raise c s).b = s.b := rfl
@[simp] theorem raise_x (c : Cause) (s : State) : (raise c s).x = s.x := rfl
@[simp] theorem raise_y (c : Cause) (s : State) : (raise c s).y = s.y := rfl
@[simp] theorem raise_flg (c : Cause) (s : State) : (raise c s).flg = s.flg := rfl
@[simp] theorem raise_pc (c : Cause) (s : State) : (raise c s).pc = s.pc := rfl
@[simp] theorem raise_sp (c : Cause) (s : State) : (raise c s).sp = s.sp := rfl
@[simp] theorem raise_mem (c : Cause) (s : State) : (raise c s).mem = s.mem := rfl
@[simp] theorem raise_run (c : Cause) (s : State) : (raise c s).run = .halted (.fault c) := rfl
@[simp] theorem raise_out (c : Cause) (s : State) : (raise c s).out = s.out := rfl

/-! ### `haltOk` -/

@[simp] theorem haltOk_params (s : State) : (haltOk s).params = s.params := rfl
@[simp] theorem haltOk_a (s : State) : (haltOk s).a = s.a := rfl
@[simp] theorem haltOk_b (s : State) : (haltOk s).b = s.b := rfl
@[simp] theorem haltOk_x (s : State) : (haltOk s).x = s.x := rfl
@[simp] theorem haltOk_y (s : State) : (haltOk s).y = s.y := rfl
@[simp] theorem haltOk_flg (s : State) : (haltOk s).flg = s.flg := rfl
@[simp] theorem haltOk_pc (s : State) : (haltOk s).pc = s.pc := rfl
@[simp] theorem haltOk_sp (s : State) : (haltOk s).sp = s.sp := rfl
@[simp] theorem haltOk_mem (s : State) : (haltOk s).mem = s.mem := rfl
@[simp] theorem haltOk_run (s : State) : (haltOk s).run = .halted .ok := rfl
@[simp] theorem haltOk_out (s : State) : (haltOk s).out = s.out := rfl

/-! ### `consoleWrite` -/

@[simp] theorem consoleWrite_params (bs : List Byte) (s : State) : (consoleWrite bs s).params = s.params := rfl
@[simp] theorem consoleWrite_a (bs : List Byte) (s : State) : (consoleWrite bs s).a = s.a := rfl
@[simp] theorem consoleWrite_b (bs : List Byte) (s : State) : (consoleWrite bs s).b = s.b := rfl
@[simp] theorem consoleWrite_x (bs : List Byte) (s : State) : (consoleWrite bs s).x = s.x := rfl
@[simp] theorem consoleWrite_y (bs : List Byte) (s : State) : (consoleWrite bs s).y = s.y := rfl
@[simp] theorem consoleWrite_flg (bs : List Byte) (s : State) : (consoleWrite bs s).flg = s.flg := rfl
@[simp] theorem consoleWrite_pc (bs : List Byte) (s : State) : (consoleWrite bs s).pc = s.pc := rfl
@[simp] theorem consoleWrite_sp (bs : List Byte) (s : State) : (consoleWrite bs s).sp = s.sp := rfl
@[simp] theorem consoleWrite_mem (bs : List Byte) (s : State) : (consoleWrite bs s).mem = s.mem := rfl
@[simp] theorem consoleWrite_run (bs : List Byte) (s : State) : (consoleWrite bs s).run = s.run := rfl
@[simp] theorem consoleWrite_out (bs : List Byte) (s : State) : (consoleWrite bs s).out = s.out ++ bs := rfl

/-! ### `setCompareFlag` -/

@[simp] theorem setCompareFlag_params (s : State) (e : Bool) : (s.setCompareFlag e).params = s.params := rfl
@[simp] theorem setCompareFlag_a (s : State) (e : Bool) : (s.setCompareFlag e).a = s.a := rfl
@[simp] theorem setCompareFlag_b (s : State) (e : Bool) : (s.setCompareFlag e).b = s.b := rfl
@[simp] theorem setCompareFlag_x (s : State) (e : Bool) : (s.setCompareFlag e).x = s.x := rfl
@[simp] theorem setCompareFlag_y (s : State) (e : Bool) : (s.setCompareFlag e).y = s.y := rfl
@[simp] theorem setCompareFlag_flg (s : State) (e : Bool) : (s.setCompareFlag e).flg = (if e then s.flg ||| 0x01#8 else s.flg &&& 0xFE#8) := rfl
@[simp] theorem setCompareFlag_pc (s : State) (e : Bool) : (s.setCompareFlag e).pc = s.pc := rfl
@[simp] theorem setCompareFlag_sp (s : State) (e : Bool) : (s.setCompareFlag e).sp = s.sp := rfl
@[simp] theorem setCompareFlag_mem (s : State) (e : Bool) : (s.setCompareFlag e).mem = s.mem := rfl
@[simp] theorem setCompareFlag_run (s : State) (e : Bool) : (s.setCompareFlag e).run = s.run := rfl
@[simp] theorem setCompareFlag_out (s : State) (e : Bool) : (s.setCompareFlag e).out = s.out := rfl

/-! ### `compare` -/

@[simp] theorem compare_params (v w : Byte) (s : State) : (compare v w s).params = s.params := rfl
@[simp] theorem compare_a (v w : Byte) (s : State) : (compare v w s).a = s.a := rfl
@[simp] theorem compare_b (v w : Byte) (s : State) : (compare v w s).b = s.b := rfl
@[simp] theorem compare_x (v w : Byte) (s : State) : (compare v w s).x = s.x := rfl
@[simp] theorem compare_y (v w : Byte) (s : State) : (compare v w s).y = s.y := rfl
@[simp] theorem compare_flg (v w : Byte) (s : State) : (compare v w s).flg = (if decide (v = w) then s.flg ||| 0x01#8 else s.flg &&& 0xFE#8) := rfl
@[simp] theorem compare_pc (v w : Byte) (s : State) : (compare v w s).pc = s.pc := rfl
@[simp] theorem compare_sp (v w : Byte) (s : State) : (compare v w s).sp = s.sp := rfl
@[simp] theorem compare_mem (v w : Byte) (s : State) : (compare v w s).mem = s.mem := rfl
@[simp] theorem compare_run (v w : Byte) (s : State) : (compare v w s).run = s.run := rfl
@[simp] theorem compare_out (v w : Byte) (s : State) : (compare v w s).out = s.out := rfl

/-! ### `branchIf` -/

@[simp] theorem branchIf_params (k : Bool) (w : Addr) (s : State) : (branchIf k w s).params = s.params := by
  cases k <;> rfl
@[simp] theorem branchIf_a (k : Bool) (w : Addr) (s : State) : (branchIf k w s).a = s.a := by
  cases k <;> rfl
@[simp] theorem branchIf_b (k : Bool) (w : Addr) (s : State) : (branchIf k w s).b = s.b := by
  cases k <;> rfl
@[simp] theorem branchIf_x (k : Bool) (w : Addr) (s : State) : (branchIf k w s).x = s.x := by
  cases k <;> rfl
@[simp] theorem branchIf_y (k : Bool) (w : Addr) (s : State) : (branchIf k w s).y = s.y := by
  cases k <;> rfl
@[simp] theorem branchIf_flg (k : Bool) (w : Addr) (s : State) : (branchIf k w s).flg = s.flg := by
  cases k <;> rfl
@[simp] theorem branchIf_pc (k : Bool) (w : Addr) (s : State) : (branchIf k w s).pc = (if k then w else s.pc) := by
  cases k <;> rfl
@[simp] theorem branchIf_sp (k : Bool) (w : Addr) (s : State) : (branchIf k w s).sp = s.sp := by
  cases k <;> rfl
@[simp] theorem branchIf_mem (k : Bool) (w : Addr) (s : State) : (branchIf k w s).mem = s.mem := by
  cases k <;> rfl
@[simp] theorem branchIf_run (k : Bool) (w : Addr) (s : State) : (branchIf k w s).run = s.run := by
  cases k <;> rfl
@[simp] theorem branchIf_out (k : Bool) (w : Addr) (s : State) : (branchIf k w s).out = s.out := by
  cases k <;> rfl

/-! ### `setReg`, the fields no selector reaches -/

@[simp] theorem setReg_params (s : State) (r : Reg) (v : Byte) : (s.setReg r v).params = s.params := by
  cases r <;> rfl
@[simp] theorem setReg_mem (s : State) (r : Reg) (v : Byte) : (s.setReg r v).mem = s.mem := by
  cases r <;> rfl
@[simp] theorem setReg_run (s : State) (r : Reg) (v : Byte) : (s.setReg r v).run = s.run := by
  cases r <;> rfl
@[simp] theorem setReg_out (s : State) (r : Reg) (v : Byte) : (s.setReg r v).out = s.out := by
  cases r <;> rfl

/-! ### `setReg`, selector by selector -/

@[simp] theorem setReg_a_a (s : State) (v : Byte) : (s.setReg .a v).a = v := rfl
@[simp] theorem setReg_a_b (s : State) (v : Byte) : (s.setReg .a v).b = s.b := rfl
@[simp] theorem setReg_a_x (s : State) (v : Byte) : (s.setReg .a v).x = s.x := rfl
@[simp] theorem setReg_a_y (s : State) (v : Byte) : (s.setReg .a v).y = s.y := rfl
@[simp] theorem setReg_a_flg (s : State) (v : Byte) : (s.setReg .a v).flg = s.flg := rfl
@[simp] theorem setReg_a_pc (s : State) (v : Byte) : (s.setReg .a v).pc = s.pc := rfl
@[simp] theorem setReg_a_sp (s : State) (v : Byte) : (s.setReg .a v).sp = s.sp := rfl
@[simp] theorem setReg_x_a (s : State) (v : Byte) : (s.setReg .x v).a = s.a := rfl
@[simp] theorem setReg_x_b (s : State) (v : Byte) : (s.setReg .x v).b = s.b := rfl
@[simp] theorem setReg_x_x (s : State) (v : Byte) : (s.setReg .x v).x = v := rfl
@[simp] theorem setReg_x_y (s : State) (v : Byte) : (s.setReg .x v).y = s.y := rfl
@[simp] theorem setReg_x_flg (s : State) (v : Byte) : (s.setReg .x v).flg = s.flg := rfl
@[simp] theorem setReg_x_pc (s : State) (v : Byte) : (s.setReg .x v).pc = s.pc := rfl
@[simp] theorem setReg_x_sp (s : State) (v : Byte) : (s.setReg .x v).sp = s.sp := rfl
@[simp] theorem setReg_y_a (s : State) (v : Byte) : (s.setReg .y v).a = s.a := rfl
@[simp] theorem setReg_y_b (s : State) (v : Byte) : (s.setReg .y v).b = s.b := rfl
@[simp] theorem setReg_y_x (s : State) (v : Byte) : (s.setReg .y v).x = s.x := rfl
@[simp] theorem setReg_y_y (s : State) (v : Byte) : (s.setReg .y v).y = v := rfl
@[simp] theorem setReg_y_flg (s : State) (v : Byte) : (s.setReg .y v).flg = s.flg := rfl
@[simp] theorem setReg_y_pc (s : State) (v : Byte) : (s.setReg .y v).pc = s.pc := rfl
@[simp] theorem setReg_y_sp (s : State) (v : Byte) : (s.setReg .y v).sp = s.sp := rfl
@[simp] theorem setReg_spa_a (s : State) (v : Byte) : (s.setReg .spa v).a = s.a := rfl
@[simp] theorem setReg_spa_b (s : State) (v : Byte) : (s.setReg .spa v).b = s.b := rfl
@[simp] theorem setReg_spa_x (s : State) (v : Byte) : (s.setReg .spa v).x = s.x := rfl
@[simp] theorem setReg_spa_y (s : State) (v : Byte) : (s.setReg .spa v).y = s.y := rfl
@[simp] theorem setReg_spa_flg (s : State) (v : Byte) : (s.setReg .spa v).flg = s.flg := rfl
@[simp] theorem setReg_spa_pc (s : State) (v : Byte) : (s.setReg .spa v).pc = s.pc := rfl
@[simp] theorem setReg_spa_sp (s : State) (v : Byte) : (s.setReg .spa v).sp = wordOfBytes v (lowByte s.sp) := rfl
@[simp] theorem setReg_pc_a (s : State) (v : Byte) : (s.setReg .pc v).a = s.a := rfl
@[simp] theorem setReg_pc_b (s : State) (v : Byte) : (s.setReg .pc v).b = s.b := rfl
@[simp] theorem setReg_pc_x (s : State) (v : Byte) : (s.setReg .pc v).x = s.x := rfl
@[simp] theorem setReg_pc_y (s : State) (v : Byte) : (s.setReg .pc v).y = s.y := rfl
@[simp] theorem setReg_pc_flg (s : State) (v : Byte) : (s.setReg .pc v).flg = s.flg := rfl
@[simp] theorem setReg_pc_pc (s : State) (v : Byte) : (s.setReg .pc v).pc = wordOfBytes 0#8 v := rfl
@[simp] theorem setReg_pc_sp (s : State) (v : Byte) : (s.setReg .pc v).sp = s.sp := rfl
@[simp] theorem setReg_flg_a (s : State) (v : Byte) : (s.setReg .flg v).a = s.a := rfl
@[simp] theorem setReg_flg_b (s : State) (v : Byte) : (s.setReg .flg v).b = s.b := rfl
@[simp] theorem setReg_flg_x (s : State) (v : Byte) : (s.setReg .flg v).x = s.x := rfl
@[simp] theorem setReg_flg_y (s : State) (v : Byte) : (s.setReg .flg v).y = s.y := rfl
@[simp] theorem setReg_flg_flg (s : State) (v : Byte) : (s.setReg .flg v).flg = v := rfl
@[simp] theorem setReg_flg_pc (s : State) (v : Byte) : (s.setReg .flg v).pc = s.pc := rfl
@[simp] theorem setReg_flg_sp (s : State) (v : Byte) : (s.setReg .flg v).sp = s.sp := rfl
@[simp] theorem setReg_b_a (s : State) (v : Byte) : (s.setReg .b v).a = s.a := rfl
@[simp] theorem setReg_b_b (s : State) (v : Byte) : (s.setReg .b v).b = v := rfl
@[simp] theorem setReg_b_x (s : State) (v : Byte) : (s.setReg .b v).x = s.x := rfl
@[simp] theorem setReg_b_y (s : State) (v : Byte) : (s.setReg .b v).y = s.y := rfl
@[simp] theorem setReg_b_flg (s : State) (v : Byte) : (s.setReg .b v).flg = s.flg := rfl
@[simp] theorem setReg_b_pc (s : State) (v : Byte) : (s.setReg .b v).pc = s.pc := rfl
@[simp] theorem setReg_b_sp (s : State) (v : Byte) : (s.setReg .b v).sp = s.sp := rfl
@[simp] theorem setReg_spb_a (s : State) (v : Byte) : (s.setReg .spb v).a = s.a := rfl
@[simp] theorem setReg_spb_b (s : State) (v : Byte) : (s.setReg .spb v).b = s.b := rfl
@[simp] theorem setReg_spb_x (s : State) (v : Byte) : (s.setReg .spb v).x = s.x := rfl
@[simp] theorem setReg_spb_y (s : State) (v : Byte) : (s.setReg .spb v).y = s.y := rfl
@[simp] theorem setReg_spb_flg (s : State) (v : Byte) : (s.setReg .spb v).flg = s.flg := rfl
@[simp] theorem setReg_spb_pc (s : State) (v : Byte) : (s.setReg .spb v).pc = s.pc := rfl
@[simp] theorem setReg_spb_sp (s : State) (v : Byte) : (s.setReg .spb v).sp = wordOfBytes (highByte s.sp) v := rfl

/-! ### `getReg`, selector by selector -/

@[simp] theorem getReg_a (s : State) : s.getReg .a = s.a := rfl
@[simp] theorem getReg_x (s : State) : s.getReg .x = s.x := rfl
@[simp] theorem getReg_y (s : State) : s.getReg .y = s.y := rfl
@[simp] theorem getReg_spa (s : State) : s.getReg .spa = highByte s.sp := rfl
@[simp] theorem getReg_pc (s : State) : s.getReg .pc = lowByte s.pc := rfl
@[simp] theorem getReg_flg (s : State) : s.getReg .flg = s.flg := rfl
@[simp] theorem getReg_b (s : State) : s.getReg .b = s.b := rfl
@[simp] theorem getReg_spb (s : State) : s.getReg .spb = lowByte s.sp := rfl

end Sys2Proof.Machine
end

