-- ==== Sys2Proof/Laws/Fetch.lean ====
section
/-! SUPPORT. What a fetch can do: it moves `pc` past the bytes it reads and changes nothing else. -/

namespace Sys2Proof.Machine

theorem fetch8_got_iff {s t : State} {v : Byte} :
    fetch8 s = .got v t ↔
      s.pc.toNat < s.params.memSize ∧ Memory.read s.mem s.pc.toNat = v ∧ t = s.advance 1 := by
  unfold fetch8
  split
  · next c hc => simp [(memRead_error_iff.mp hc).1]
  · next w hw =>
    obtain ⟨hlt, rfl⟩ := memRead_ok_iff.mp hw
    simp [hlt, eq_comm]

theorem fetch8_raised_iff {s t : State} {c : Cause} :
    fetch8 s = .raised c t ↔ s.params.memSize ≤ s.pc.toNat ∧ c = .memoryFault ∧ t = s := by
  unfold fetch8
  split
  · next d hd =>
    obtain ⟨hle, rfl⟩ := memRead_error_iff.mp hd
    simp [hle, eq_comm]
  · next w hw => simp [(memRead_ok_iff.mp hw).1]

theorem fetch8_inside {s : State} (h : s.pc.toNat < s.params.memSize) :
    fetch8 s = .got (Memory.read s.mem s.pc.toNat) (s.advance 1) :=
  fetch8_got_iff.mpr ⟨h, rfl, rfl⟩

theorem fetch8_outside {s : State} (h : s.params.memSize ≤ s.pc.toNat) : fetch8 s = .raised .memoryFault s :=
  fetch8_raised_iff.mpr ⟨h, rfl, rfl⟩

/-- Fetching `n` bytes either reads them all or faults after `k < n` of them; either way only `pc` moves. -/
theorem fetchBytes_cases (n : Nat) (s : State) :
    (∃ vs, vs.length = n ∧ fetchBytes n s = .got vs (s.advance n)) ∨
    (∃ k, k < n ∧ s.params.memSize ≤ (s.advance k).pc.toNat ∧ fetchBytes n s = .raised .memoryFault (s.advance k)) := by
  induction n generalizing s with
  | zero => exact .inl ⟨[], rfl, by simp [fetchBytes]⟩
  | succ n ih =>
    obtain h | h := Nat.lt_or_ge s.pc.toNat s.params.memSize
    · obtain ⟨vs, hlen, hgot⟩ | ⟨k, hk, hout, hraised⟩ := ih (s.advance 1)
      · refine .inl ⟨Memory.read s.mem s.pc.toNat :: vs, by simp [hlen], ?_⟩
        simp [fetchBytes, fetch8_inside h, hgot, Nat.add_comm]
      · rw [advance_advance] at hout hraised
        refine .inr ⟨1 + k, by omega, hout, ?_⟩
        simp [fetchBytes, fetch8_inside h, hraised]
    · refine .inr ⟨0, by omega, by simpa using h, ?_⟩
      simp [fetchBytes, fetch8_outside h]

/-- Everything the fetch of an instruction can do, `op` being the byte at `pc`: it takes the bytes that `op` asks for, or
it faults with fewer than that; only `pc` moves. -/
theorem fetchInstr_cases (s : State) (op : Byte) (hop : Memory.read s.mem s.pc.toNat = op) :
    (s.params.memSize ≤ s.pc.toNat ∧ fetchInstr s = .raised .memoryFault s) ∨
    (s.pc.toNat < s.params.memSize ∧ ∃ vs : List Byte, vs.length = instrLength op - 1 ∧
      fetchInstr s = .got (decodeWord op (vs.getD 0 0#8) (vs.getD 1 0#8)) (s.advance (instrLength op))) ∨
    (s.pc.toNat < s.params.memSize ∧ ∃ k, 1 ≤ k ∧ k < instrLength op ∧
      s.params.memSize ≤ (s.advance k).pc.toNat ∧ fetchInstr s = .raised .memoryFault (s.advance k)) := by
  obtain h | h := Nat.lt_or_ge s.pc.toNat s.params.memSize
  · have hpos := instrLength_pos op
    have hback : 1 + (instrLength op - 1) = instrLength op := by omega
    obtain ⟨vs, hlen, hgot⟩ | ⟨k, hk, hout, hraised⟩ := fetchBytes_cases (instrLength op - 1) (s.advance 1)
    · refine .inr (.inl ⟨h, vs, hlen, ?_⟩)
      simp only [fetchInstr, fetch8_inside h, hop, hgot, advance_advance, hback]
    · rw [advance_advance] at hout hraised
      refine .inr (.inr ⟨h, 1 + k, by omega, by omega, hout, ?_⟩)
      simp only [fetchInstr, fetch8_inside h, hop, hraised]
  · exact .inl ⟨h, by simp [fetchInstr, fetch8_outside h]⟩

theorem fetchInstr_got {s t : State} {i : Instr} (h : fetchInstr s = .got i t) :
    ∃ k, 1 ≤ k ∧ k ≤ 3 ∧ t = s.advance k := by
  obtain ⟨-, h'⟩ | ⟨-, vs, -, h'⟩ | ⟨-, k, -, -, -, h'⟩ := fetchInstr_cases s _ rfl
  · rw [h'] at h; simp at h
  · rw [h', Fetch.got.injEq] at h
    exact ⟨_, instrLength_pos _, instrLength_le _, h.2.symm⟩
  · rw [h'] at h; simp at h

theorem fetchInstr_raised {s t : State} {c : Cause} (h : fetchInstr s = .raised c t) :
    c = .memoryFault ∧ ∃ k, k ≤ 2 ∧ t = s.advance k := by
  obtain ⟨-, h'⟩ | ⟨-, vs, -, h'⟩ | ⟨-, k, -, hk, -, h'⟩ := fetchInstr_cases s _ rfl
  · rw [h', Fetch.raised.injEq] at h
    exact ⟨h.1.symm, 0, by omega, by simp [← h.2]⟩
  · rw [h'] at h; simp at h
  · rw [h', Fetch.raised.injEq] at h
    have := instrLength_le (Memory.read s.mem s.pc.toNat)
    exact ⟨h.1.symm, k, by omega, h.2.symm⟩

/-- A step that answers a next state was of a running machine. -/
theorem step_next_running {s t : State} (h : step s = .next t) : s.run = .running := by
  unfold step at h
  split at h
  · simp [stepHalted] at h
  · assumption

/-- Everything a step that answers a next state can have done: halt in the fetch, or run the instruction fetched. -/
theorem step_next {s t : State} (h : step s = .next t) :
    (∃ k, k ≤ 2 ∧ fetchInstr s = .raised .memoryFault (s.advance k) ∧ t = raise .memoryFault (s.advance k)) ∨
    (∃ i k, 1 ≤ k ∧ k ≤ 3 ∧ fetchInstr s = .got i (s.advance k) ∧ exec i (s.advance k) = .next t) := by
  have hr := step_next_running h
  unfold step at h
  rw [hr] at h
  simp only at h
  split at h
  · next c u hf =>
    obtain ⟨rfl, k, hk, rfl⟩ := fetchInstr_raised hf
    exact .inl ⟨k, hk, hf, by simpa [eq_comm] using h⟩
  · next i u hf =>
    obtain ⟨k, h1, h3, rfl⟩ := fetchInstr_got hf
    exact .inr ⟨i, k, h1, h3, hf, h⟩

end Sys2Proof.Machine
end

