-- ==== Sys2Proof/Laws/Code.lean ====
section
/-! SUPPORT. The fetch of bytes that stand in memory, and the split over the 32 family codes. -/

namespace Sys2Proof

/-- Every opcode byte is a family code and a selector. -/
theorem opcodeByte_surj (op : Byte) : ∃ fam sel, op = opcodeByte fam sel :=
  ⟨_, _, (opcodeByte_fields op).symm⟩

/-- The 32 family codes. -/
theorem family_cases (fam : BitVec 5) :
    fam = 0 ∨ fam = 1 ∨ fam = 2 ∨ fam = 3 ∨ fam = 4 ∨ fam = 5 ∨ fam = 6 ∨ fam = 7 ∨ fam = 8 ∨ fam = 9 ∨ fam = 10 ∨
    fam = 11 ∨ fam = 12 ∨ fam = 13 ∨ fam = 14 ∨ fam = 15 ∨ fam = 16 ∨ fam = 17 ∨ fam = 18 ∨ fam = 19 ∨ fam = 20 ∨
    fam = 21 ∨ fam = 22 ∨ fam = 23 ∨ fam = 24 ∨ fam = 25 ∨ fam = 26 ∨ fam = 27 ∨ fam = 28 ∨ fam = 29 ∨ fam = 30 ∨
    fam = 31 := by
  revert fam; decide

theorem decode_cons (op : Byte) (rest : List Byte) (h : instrLength op ≤ rest.length + 1) :
    decode (op :: rest) =
      .ok (decodeWord op (rest.getD 0 0#8) (rest.getD 1 0#8), rest.drop (instrLength op - 1)) :=
  if_pos h

end Sys2Proof

namespace Sys2Proof.Machine

theorem codeAt_nil (s : State) (p : Addr) : codeAt s p [] = true := rfl

theorem codeAt_cons {s : State} {p : Addr} {v : Byte} {vs : List Byte} :
    codeAt s p (v :: vs) = true ↔
      p.toNat < s.params.memSize ∧ Memory.read s.mem p.toNat = v ∧ codeAt s (p + 1) vs = true := by
  simp [codeAt, and_assoc]

/-- Code is looked for in memory alone. -/
theorem codeAt_advance (s : State) (n : Nat) (p : Addr) (vs : List Byte) :
    codeAt (s.advance n) p vs = codeAt s p vs := by
  induction vs generalizing p with
  | nil => rfl
  | cons v vs ih =>
    rw [codeAt, codeAt, ih]
    rfl

theorem add_ofNat_succ (p : Addr) (n : Nat) : p + BitVec.ofNat 16 (n + 1) = p + 1 + BitVec.ofNat 16 n := by
  rw [Nat.add_comm, ← BitVec.ofNat_add_ofNat, ← BitVec.add_assoc]
  rfl

/-- An address before a run of code that does not come round to it is not in the run. -/
theorem toNat_ne_add {p : Addr} {n : Nat} (h0 : 0 < n) (hn : n < 65536) : (p + BitVec.ofNat 16 n).toNat ≠ p.toNat := by
  have := p.isLt
  rw [BitVec.toNat_add, BitVec.toNat_ofNat]
  omega

/-- A store to an address that no byte of the code has leaves the code. -/
theorem codeAt_write_other {s : State} {n : Nat} {v : Byte} (vs : List Byte) {p : Addr} (h : codeAt s p vs = true)
    (hn : ∀ k, k < vs.length → (p + BitVec.ofNat 16 k).toNat ≠ n) :
    codeAt { s with mem := Memory.write s.mem n v } p vs = true := by
  induction vs generalizing p with
  | nil => rfl
  | cons w ws ih =>
    obtain ⟨hin, hw, hws⟩ := codeAt_cons.mp h
    refine codeAt_cons.mpr ⟨hin, ?_, ih hws fun k hk => ?_⟩
    · rw [Memory.read_write_other _ _ _ (by simpa using hn 0 (Nat.zero_lt_succ _)), hw]
    · exact add_ofNat_succ p k ▸ hn (k + 1) (Nat.succ_lt_succ hk)

/-- A store to the address of byte `k` of the code replaces that byte in it. -/
theorem codeAt_write_same {s : State} {v : Byte} (vs : List Byte) (k : Nat) {p : Addr} (h : codeAt s p vs = true)
    (hk : k < vs.length) (hl : vs.length ≤ 65536) :
    codeAt { s with mem := Memory.write s.mem (p + BitVec.ofNat 16 k).toNat v } p (vs.set k v) = true := by
  induction vs generalizing p k with
  | nil => exact absurd hk (Nat.not_lt_zero k)
  | cons w ws ih =>
    obtain ⟨hin, hw, hws⟩ := codeAt_cons.mp h
    rw [List.length_cons] at hk hl
    cases k with
    | zero =>
      refine codeAt_cons.mpr ⟨hin, by simp [Memory.read_write_same], codeAt_write_other ws hws fun j hj => ?_⟩
      rw [← add_ofNat_succ, BitVec.add_zero]
      exact toNat_ne_add (by omega) (by omega)
    | succ k =>
      refine codeAt_cons.mpr ⟨hin, ?_, add_ofNat_succ p k ▸ ih k hws (by omega) (by omega)⟩
      rw [Memory.read_write_other _ _ _ (toNat_ne_add (by omega) (by omega)).symm, hw]

/-- Bytes that stand at `pc` are what the fetch of so many bytes gets. -/
theorem fetchBytes_of_codeAt {s : State} (vs : List Byte) (h : codeAt s s.pc vs = true) :
    fetchBytes vs.length s = .got vs (s.advance vs.length) := by
  induction vs generalizing s with
  | nil => simp [fetchBytes]
  | cons v vs ih =>
    obtain ⟨hin, hv, hvs⟩ := codeAt_cons.mp h
    have hgot := ih (s := s.advance 1) (by rw [codeAt_advance]; exact hvs)
    simp only [List.length_cons, fetchBytes, fetch8_inside hin, hgot, hv, advance_advance, Nat.add_comm 1]

/-- Bytes that stand at `pc` and end at the end of memory are all that the fetch of more bytes gets. -/
theorem fetchBytes_of_codeAt_short {s : State} (vs : List Byte) (n : Nat) (h : codeAt s s.pc vs = true)
    (hn : vs.length < n) (hout : s.params.memSize ≤ (s.advance vs.length).pc.toNat) :
    fetchBytes n s = .raised .memoryFault (s.advance vs.length) := by
  induction vs generalizing s n with
  | nil =>
    obtain ⟨m, rfl⟩ := Nat.exists_eq_add_of_lt hn
    rw [List.length_nil, advance_zero] at hout ⊢
    simp only [fetchBytes, fetch8_outside hout]
  | cons v vs ih =>
    rw [List.length_cons] at hn hout ⊢
    obtain ⟨m, rfl⟩ := Nat.exists_eq_add_of_lt hn
    obtain ⟨hin, hv, hvs⟩ := codeAt_cons.mp h
    have e : 1 + vs.length = vs.length + 1 := Nat.add_comm ..
    have hraised := ih (s := s.advance 1) (n := vs.length + 1 + m) (by rw [codeAt_advance]; exact hvs) (by omega)
      (by rw [advance_advance, e]; exact hout)
    simp only [fetchBytes, fetch8_inside hin, hraised, advance_advance, e]

/-- The instruction whose bytes stand at `pc` is what the fetch gets. -/
theorem fetchInstr_of_codeAt {s : State} (op : Byte) (rest : List Byte) (h : codeAt s s.pc (op :: rest) = true)
    (hl : instrLength op = rest.length + 1) :
    fetchInstr s = .got (decodeWord op (rest.getD 0 0#8) (rest.getD 1 0#8)) (s.advance (rest.length + 1)) := by
  obtain ⟨hin, hop, hrest⟩ := codeAt_cons.mp h
  have hgot := fetchBytes_of_codeAt (s := s.advance 1) rest (by rw [codeAt_advance]; exact hrest)
  have e : instrLength op - 1 = rest.length := by omega
  simp only [fetchInstr, fetch8_inside hin, hop, e, hgot, advance_advance, Nat.add_comm 1]

/-- Fewer bytes than the opcode byte asks for, up to the end of memory: the fetch faults past them. -/
theorem fetchInstr_of_codeAt_short {s : State} (op : Byte) (rest : List Byte) (h : codeAt s s.pc (op :: rest) = true)
    (hl : rest.length + 1 < instrLength op) (hout : s.params.memSize ≤ (s.advance (rest.length + 1)).pc.toNat) :
    fetchInstr s = .raised .memoryFault (s.advance (rest.length + 1)) := by
  obtain ⟨hin, hop, hrest⟩ := codeAt_cons.mp h
  have e : 1 + rest.length = rest.length + 1 := Nat.add_comm ..
  have hraised := fetchBytes_of_codeAt_short (s := s.advance 1) rest (instrLength op - 1)
    (by rw [codeAt_advance]; exact hrest) (by omega) (by rw [advance_advance, e]; exact hout)
  simp only [fetchInstr, fetch8_inside hin, hop, hraised, advance_advance, e]

end Sys2Proof.Machine
end

