-- ==== Sys2Proof/Laws/Exec.lean ====
section
/-! SUPPORT. Everything an instruction can do to the state, said once: `exec_effect`. -/

namespace Sys2Proof.Machine

/-- The shapes a next state can have, over the state an instruction starts from. -/
inductive Effect (s : State) : State → Prop where
  | none : Effect s s
  | jump (w : Addr) : Effect s { s with pc := w }
  | writeReg (r : Reg) (v : Byte) : Effect s (s.setReg r v)
  | writeA (v : Byte) : Effect s { s with a := v }
  | writeAB (v w : Byte) : Effect s { s with a := v, b := w }
  | writeFlag (e : Bool) : Effect s (s.setCompareFlag e)
  | store (n : Nat) (v : Byte) (h : n < s.params.memSize) : Effect s { s with mem := Memory.write s.mem n v }
  | raised (c : Cause) (h : c = .memoryFault ∨ c = .invalidOpcode ∨ c = .divideByZero ∨ c = .unknownSyscall) :
      Effect s (raise c s)
  | exit (h : s.a = 0#8) : Effect s (haltOk s)
  | print (bs : List Byte) : Effect s (consoleWrite bs s)

theorem Effect.of_branchIf (s : State) (k : Bool) (w : Addr) : Effect s (branchIf k w s) := by
  cases k
  · exact .none
  · exact .jump w

theorem Effect.of_storeByte {ea : Addr} {v : Byte} {s t : State} (h : storeByte ea v s = .next t) : Effect s t := by
  obtain ⟨hlt, rfl⟩ | ⟨-, rfl⟩ := storeByte_next h
  · exact .store _ _ hlt
  · exact .raised _ (.inl rfl)

theorem Effect.of_loadA {ea : Addr} {s t : State} (h : loadA ea s = .next t) : Effect s t := by
  obtain ⟨-, rfl⟩ | ⟨-, rfl⟩ := loadA_next h
  · exact .writeA _
  · exact .raised _ (.inl rfl)

theorem Effect.of_divide {v w : Byte} {s t : State} (h : divide v w s = .next t) : Effect s t := by
  obtain ⟨-, rfl⟩ | ⟨-, rfl⟩ := divide_next h
  · exact .writeAB _ _
  · exact .raised _ (.inr (.inr (.inl rfl)))

theorem Effect.of_syscall {s t : State} (h : execSyscall s = .next t) : Effect s t := by
  obtain ⟨h0, rfl⟩ | ⟨-, rfl⟩ | ⟨-, rfl⟩ | ⟨-, -, -, rfl⟩ := execSyscall_next h
  · exact .exit h0
  · obtain ⟨bs, e⟩ | e := printString_cases s <;> rw [e]
    · exact .print bs
    · exact .raised _ (.inl rfl)
  · obtain ⟨-, e⟩ | ⟨-, e⟩ := printNumber_cases s <;> rw [e]
    · exact .print _
    · exact .raised _ (.inl rfl)
  · exact .raised _ (.inr (.inr (.inr rfl)))

/-- If an instruction answers a next state, that state is one of these. -/
theorem exec_effect {i : Instr} {s t : State} (h : exec i s = .next t) : Effect s t := by
  cases i with
  | invalid => cases h; exact .raised _ (.inr (.inl rfl))
  | bneImm | beqImm | jmpImm | bneReg | beqReg | jmpReg => cases h; exact .of_branchIf ..
  | movImm | movReg | notImm | notReg => cases h; exact .writeReg ..
  | cmpImm | cmpReg => cases h; exact .writeFlag _
  | pokeImm | pokeReg => exact .of_storeByte h
  | peekImm | peekReg => exact .of_loadA h
  | syscall => exact .of_syscall h
  | divImm | divReg => exact .of_divide h
  | addImm | subImm | mulImm | andImm | orImm | xorImm => cases h; exact .writeA _
  | addReg | subReg | mulReg | andReg | orReg | xorReg => cases h; exact .writeA _

end Sys2Proof.Machine
end

