-- ==== Sys2Proof/Laws/PerInstr.lean ====
section
/-! SUPPORT. Families of statements about every instruction as syntax, one lemma per constructor. -/

namespace Sys2Proof.Laws.EncodedLength

/-- The encoding of an instruction has exactly the length its first byte announces to the decoder (30_encoding.md
rule R63). -/
def Statement (i : Instr) : Prop := (encode i).length = instrLength ((encode i).headD 0)

theorem invalid : Statement .invalid := rfl
theorem bneImm (addr : Addr) : Statement (.bneImm addr) :=
  (instrLength_opcodeByte 1 0).symm
theorem beqImm (addr : Addr) : Statement (.beqImm addr) :=
  (instrLength_opcodeByte 2 0).symm
theorem jmpImm (addr : Addr) : Statement (.jmpImm addr) :=
  (instrLength_opcodeByte 3 0).symm
theorem movImm (r : Reg) (imm : Byte) : Statement (.movImm r imm) :=
  (instrLength_opcodeByte 4 r.selector).symm
theorem cmpImm (r : Reg) (imm : Byte) : Statement (.cmpImm r imm) :=
  (instrLength_opcodeByte 5 r.selector).symm
theorem pokeImm (rs : Reg) (addr : Addr) : Statement (.pokeImm rs addr) :=
  (instrLength_opcodeByte 6 rs.selector).symm
theorem peekImm (addr : Addr) : Statement (.peekImm addr) :=
  (instrLength_opcodeByte 7 0).symm
theorem syscall : Statement .syscall := rfl
theorem bneReg : Statement .bneReg := rfl
theorem beqReg : Statement .beqReg := rfl
theorem jmpReg : Statement .jmpReg := rfl
theorem movReg (r q : Reg) : Statement (.movReg r q) :=
  (instrLength_opcodeByte 12 r.selector).symm
theorem cmpReg (r q : Reg) : Statement (.cmpReg r q) :=
  (instrLength_opcodeByte 13 r.selector).symm
theorem pokeReg (rs : Reg) : Statement (.pokeReg rs) :=
  (instrLength_opcodeByte 14 rs.selector).symm
theorem peekReg : Statement .peekReg := rfl
theorem addImm (r : Reg) (imm : Byte) : Statement (.addImm r imm) :=
  (instrLength_opcodeByte 16 r.selector).symm
theorem subImm (r : Reg) (imm : Byte) : Statement (.subImm r imm) :=
  (instrLength_opcodeByte 17 r.selector).symm
theorem mulImm (r : Reg) (imm : Byte) : Statement (.mulImm r imm) :=
  (instrLength_opcodeByte 18 r.selector).symm
theorem divImm (r : Reg) (imm : Byte) : Statement (.divImm r imm) :=
  (instrLength_opcodeByte 19 r.selector).symm
theorem andImm (r : Reg) (imm : Byte) : Statement (.andImm r imm) :=
  (instrLength_opcodeByte 20 r.selector).symm
theorem orImm (r : Reg) (imm : Byte) : Statement (.orImm r imm) :=
  (instrLength_opcodeByte 21 r.selector).symm
theorem notImm (r : Reg) (imm : Byte) : Statement (.notImm r imm) :=
  (instrLength_opcodeByte 22 r.selector).symm
theorem xorImm (r : Reg) (imm : Byte) : Statement (.xorImm r imm) :=
  (instrLength_opcodeByte 23 r.selector).symm
theorem addReg (r q : Reg) : Statement (.addReg r q) :=
  (instrLength_opcodeByte 24 r.selector).symm
theorem subReg (r q : Reg) : Statement (.subReg r q) :=
  (instrLength_opcodeByte 25 r.selector).symm
theorem mulReg (r q : Reg) : Statement (.mulReg r q) :=
  (instrLength_opcodeByte 26 r.selector).symm
theorem divReg (r q : Reg) : Statement (.divReg r q) :=
  (instrLength_opcodeByte 27 r.selector).symm
theorem andReg (r q : Reg) : Statement (.andReg r q) :=
  (instrLength_opcodeByte 28 r.selector).symm
theorem orReg (r q : Reg) : Statement (.orReg r q) :=
  (instrLength_opcodeByte 29 r.selector).symm
theorem notReg (r q : Reg) : Statement (.notReg r q) :=
  (instrLength_opcodeByte 30 r.selector).symm
theorem xorReg (r q : Reg) : Statement (.xorReg r q) :=
  (instrLength_opcodeByte 31 r.selector).symm

end Sys2Proof.Laws.EncodedLength
end

