-- ==== Sys2Proof/Tests/Slice0.lean ====
section
/-! SUPPORT. Tests: the checks of WellFormed, words written out from the spec's encodings, one step per theorem on the
vectors of 95_test_vectors.md part 2 (their ids in the names), and, for every statement with hypotheses, a state that meets
them. Every expected value is the spec's. -/

namespace Sys2Proof.Tests

open Sys2Proof Sys2Proof.Machine

/-! ### Helpers -/

/-- The base state of 95_test_vectors.md. -/
abbrev base : State := State.reset

/-- A memory of another size. -/
def sized (n : Nat) (s : State) : State := { s with params := { s.params with memSize := n } }

/-- The bytes of an instruction where the next step fetches it. -/
def vector (s : State) (code : List Byte) : State := putCode s s.pc code

/-- One step on the bytes gives the change `f` of the start state. -/
def Runs (s : State) (code : List Byte) (f : State → State) : Prop :=
  step (vector s code) = .next (f (vector s code))

/-! ### WellFormed: each check refuses an ill-formed term -/

theorem test_wf_refuses_unassigned : Instr.wf .invalid = false := rfl
theorem test_wf_refuses_memory_of_no_bytes : Params.wf { memSize := 0, spInit := 0#16, entry := 0#16 } = false := rfl
theorem test_wf_refuses_memory_past_64K : Params.wf { memSize := 65537, spInit := 0#16, entry := 0#16 } = false := rfl
theorem test_wf_takes_both_ends_of_the_range :
    Params.wf { memSize := 1, spInit := 0#16, entry := 0#16 } = true ∧
    Params.wf { memSize := 65536, spInit := 0#16, entry := 0xFFFF#16 } = true := ⟨rfl, rfl⟩
theorem test_wf_refuses_long_image :
    Params.imageFits { memSize := 4, spInit := 0#16, entry := 0#16 } [0x20#8, 0x01#8, 0x20#8, 0x02#8, 0x40#8] = false ∧
    Params.imageFits { memSize := 4, spInit := 0#16, entry := 0#16 } [0x20#8, 0x01#8, 0x20#8, 0x02#8] = true := ⟨rfl, rfl⟩
theorem test_memory_form_refuses_disorder_and_listed_zero :
    ¬ Memory.wf [(5, 1#8), (4, 1#8)] ∧ ¬ Memory.wf [(4, 1#8), (4, 2#8)] ∧ ¬ Memory.wf [(4, 0#8)] := by decide

/-! ### Decoding: words of 30_encoding.md rules R56 to R62 and 95_test_vectors.md §2.10 -/

theorem test_decode_branches :
    decode [0x08#8, 0x12#8, 0x34#8] = .ok (.bneImm 0x1234#16, []) ∧
    decode [0x13#8, 0x00#8, 0x10#8] = .ok (.beqImm 0x0010#16, []) ∧
    decode [0x1F#8, 0xFF#8, 0x00#8, 0xAA#8] = .ok (.jmpImm 0xFF00#16, [0xAA#8]) ∧
    decode [0x4A#8] = .ok (.bneReg, []) ∧ decode [0x50#8] = .ok (.beqReg, []) ∧ decode [0x5F#8] = .ok (.jmpReg, []) := by
  decide

theorem test_decode_move_compare :
    decode [0x26#8, 0x7F#8] = .ok (.movImm .b 0x7F#8, []) ∧ decode [0x62#8, 0xFE#8] = .ok (.movReg .y .b, []) ∧
    decode [0x2D#8, 0x01#8] = .ok (.cmpImm .flg 0x01#8, []) ∧ decode [0x69#8, 0x02#8] = .ok (.cmpReg .x .y, []) := by
  decide

theorem test_decode_memory_access :
    decode [0x31#8, 0x04#8, 0x00#8] = .ok (.pokeImm .x 0x0400#16, []) ∧
    decode [0x3F#8, 0x00#8, 0x20#8] = .ok (.peekImm 0x0020#16, []) ∧
    decode [0x76#8] = .ok (.pokeReg .b, []) ∧ decode [0x78#8] = .ok (.peekReg, []) := by
  decide

theorem test_decode_syscall_and_unassigned :
    decode [0x40#8] = .ok (.syscall, []) ∧ decode [0x47#8] = .ok (.syscall, []) ∧
    decode [0x00#8] = .ok (.invalid, []) ∧ decode [0x07#8] = .ok (.invalid, []) := by
  decide

theorem test_decode_arithmetic :
    decode [0x86#8, 0x0A#8] = .ok (.addImm .b 0x0A#8, []) ∧ decode [0x89#8, 0x01#8] = .ok (.subImm .x 0x01#8, []) ∧
    decode [0x90#8, 0xFF#8] = .ok (.mulImm .a 0xFF#8, []) ∧ decode [0x9E#8, 0x04#8] = .ok (.divImm .b 0x04#8, []) ∧
    decode [0xC6#8, 0x01#8] = .ok (.addReg .b .x, []) ∧ decode [0xC9#8, 0x02#8] = .ok (.subReg .x .y, []) ∧
    decode [0xD1#8, 0x02#8] = .ok (.mulReg .x .y, []) ∧ decode [0xDE#8, 0x00#8] = .ok (.divReg .b .a, []) := by
  decide

theorem test_decode_logic :
    decode [0xA0#8, 0x0F#8] = .ok (.andImm .a 0x0F#8, []) ∧ decode [0xA8#8, 0xF0#8] = .ok (.orImm .a 0xF0#8, []) ∧
    decode [0xB3#8, 0x00#8] = .ok (.notImm .spa 0x00#8, []) ∧ decode [0xBC#8, 0xFF#8] = .ok (.xorImm .pc 0xFF#8, []) ∧
    decode [0xE1#8, 0x02#8] = .ok (.andReg .x .y, []) ∧ decode [0xE9#8, 0x02#8] = .ok (.orReg .x .y, []) ∧
    decode [0xF5#8, 0x05#8] = .ok (.notReg .flg .flg, []) ∧ decode [0xFF#8, 0x03#8] = .ok (.xorReg .spb .spa, []) := by
  decide

theorem test_decode_refuses_by_name :
    decode [] = .error .empty ∧ decode [0x20#8] = .error (.truncated 1) ∧ decode [0x18#8] = .error (.truncated 2) ∧
    decode [0x18#8, 0x00#8] = .error (.truncated 1) := by
  decide

theorem test_encode_words :
    encode (.bneImm 0x1234#16) = [0x08#8, 0x12#8, 0x34#8] ∧ encode (.movImm .b 0x7F#8) = [0x26#8, 0x7F#8] ∧
    encode (.pokeReg .x) = [0x71#8] ∧ encode (.xorReg .spb .spa) = [0xFF#8, 0x03#8] := by
  decide

theorem test_decodeTableWord :
    decodeTableWord 24 0x341208 = some (.bneImm 0x1234#16) ∧ decodeTableWord 16 0xFE60 = some (.movReg .a .b) ∧
    decodeTableWord 8 0x47 = some .syscall ∧ decodeTableWord 8 0x00 = some .invalid := by
  decide

theorem test_withFetchWord_runs_first_after_reset :
    step (State.reset.withFetchWord 24 0x341208) =
      .next { State.reset.withFetchWord 24 0x341208 with pc := 0x1234#16 } := rfl

/-! ### One step each -/

theorem test_I2_invalid : Runs { base with pc := 0x20#16 } [0x07#8] fun s =>
    { s with pc := 0x21#16, run := .halted (.fault .invalidOpcode) } := rfl

theorem test_B3_bneImm_only_bit_0 : Runs { base with flg := 0xFE#8 } [0x08#8, 0x12#8, 0x34#8] fun s =>
    { s with pc := 0x1234#16 } := rfl
theorem test_B4_bneImm_not_taken : Runs { base with flg := 0xFF#8 } [0x08#8, 0x12#8, 0x34#8] fun s =>
    { s with pc := 3#16 } := rfl
theorem test_B6_beqImm_taken : Runs { base with flg := 1#8 } [0x10#8, 0x00#8, 0x10#8] fun s => { s with pc := 0x10#16 } := rfl
theorem test_B7_beqImm_not_taken : Runs base [0x10#8, 0x00#8, 0x10#8] fun s => { s with pc := 3#16 } := rfl
theorem test_B8_jmpImm : Runs { base with pc := 0x100#16 } [0x18#8, 0x00#8, 0x40#8] fun s => { s with pc := 0x40#16 } := rfl
theorem test_B16_jmpImm_missing_byte : Runs (sized 2 base) [0x18#8, 0x00#8] fun s =>
    { s with pc := 2#16, run := .halted (.fault .memoryFault) } := rfl
theorem test_B10_bneReg_taken : Runs { base with pc := 5#16, x := 1#8, y := 2#8 } [0x48#8] fun s =>
    { s with pc := 0x102#16 } := rfl
theorem test_B11_bneReg_not_taken : Runs { base with pc := 5#16, x := 1#8, y := 2#8, flg := 1#8 } [0x48#8] fun s =>
    { s with pc := 6#16 } := rfl
theorem test_B12_beqReg_taken : Runs { base with pc := 5#16, y := 0x20#8, flg := 1#8 } [0x50#8] fun s =>
    { s with pc := 0x20#16 } := rfl
theorem test_B13_beqReg_not_taken : Runs { base with pc := 5#16, y := 0x20#8 } [0x50#8] fun s =>
    { s with pc := 6#16 } := rfl
theorem test_B15_jmpReg_unchecked_target : Runs { base with x := 0xFF#8, y := 0xFF#8 } [0x58#8] fun s =>
    { s with pc := 0xFFFF#16 } := rfl

theorem test_M5_movImm_to_pc : Runs { base with pc := 0x200#16 } [0x24#8, 0x10#8] fun s => { s with pc := 0x10#16 } := rfl
theorem test_M6_movImm_to_spa : Runs { base with sp := 0xFF#16 } [0x23#8, 0x12#8] fun s =>
    { s with sp := 0x12FF#16, pc := 2#16 } := rfl
theorem test_M9_movReg_from_pc : Runs { base with pc := 0x100#16 } [0x60#8, 0x04#8] fun s =>
    { s with a := 2#8, pc := 0x102#16 } := rfl
theorem test_M10_movReg_masks_its_source : Runs { base with b := 0x77#8 } [0x60#8, 0xFE#8] fun s =>
    { s with a := 0x77#8, pc := 2#16 } := rfl
theorem test_C4_cmpImm_keeps_high_bits : Runs { base with a := 6#8, flg := 0xFF#8 } [0x28#8, 0x05#8] fun s =>
    { s with flg := 0xFE#8, pc := 2#16 } := rfl
theorem test_C11_cmpImm_reads_pc_late : Runs base [0x2C#8, 0x02#8] fun s => { s with flg := 1#8, pc := 2#16 } := rfl
theorem test_C6_cmpReg_unequal : Runs { base with x := 7#8, y := 8#8, flg := 1#8 } [0x69#8, 0x02#8] fun s =>
    { s with flg := 0#8, pc := 2#16 } := rfl
theorem test_C10_cmpReg_flg_with_itself : Runs { base with flg := 0x80#8 } [0x6D#8, 0x05#8] fun s =>
    { s with flg := 0x81#8, pc := 2#16 } := rfl

theorem test_K5_pokeImm_last_byte : Runs { base with a := 7#8 } [0x30#8, 0x03#8, 0xFF#8] fun s =>
    { s with mem := [(0, 0x30#8), (1, 0x03#8), (2, 0xFF#8), (0x3FF, 7#8)], pc := 3#16 } := rfl
theorem test_K2_pokeImm_of_pc : Runs base [0x34#8, 0x00#8, 0x20#8] fun s =>
    { s with mem := [(0, 0x34#8), (2, 0x20#8), (0x20, 3#8)], pc := 3#16 } := rfl
theorem test_K8_pokeReg : Runs { base with x := 1#8, y := 0x30#8 } [0x72#8] fun s =>
    { s with mem := [(0, 0x72#8), (0x130, 0x30#8)], pc := 1#16 } := rfl
theorem test_K9_pokeReg_outside : Runs { base with x := 4#8 } [0x70#8] fun s =>
    { s with pc := 1#16, run := .halted (.fault .memoryFault) } := rfl
theorem test_K12_peekImm_ignores_selector : Runs { base with mem := [(0x20, 0x2A#8)] } [0x3F#8, 0x00#8, 0x20#8] fun s =>
    { s with a := 0x2A#8, pc := 3#16 } := rfl
theorem test_K11_peekImm_outside : Runs { base with a := 0x55#8 } [0x38#8, 0xFF#8, 0xFF#8] fun s =>
    { s with pc := 3#16, run := .halted (.fault .memoryFault) } := rfl
theorem test_K14_peekReg : Runs { base with y := 0x20#8, mem := [(0x20, 0x2A#8)] } [0x78#8] fun s =>
    { s with a := 0x2A#8, pc := 1#16 } := rfl
theorem test_K15_peekReg_outside : Runs { base with x := 0xFF#8 } [0x78#8] fun s =>
    { s with pc := 1#16, run := .halted (.fault .memoryFault) } := rfl

theorem test_Y3_syscall_prints_string :
    Runs { base with a := 1#8, y := 0x0A#8, mem := [(0x0A, 0x48#8), (0x0B, 0x69#8)] } [0x40#8] fun s =>
      { s with out := [0x48#8, 0x69#8], pc := 1#16 } := rfl
theorem test_Y6_syscall_prints_number : Runs { base with a := 2#8, y := 0x20#8, mem := [(0x20, 0xFF#8)] } [0x40#8] fun s =>
    { s with out := [0x32#8, 0x35#8, 0x35#8], pc := 1#16 } := rfl

theorem test_A1_addImm_wraps : Runs { base with a := 0xFA#8 } [0x80#8, 0x0A#8] fun s => { s with a := 4#8, pc := 2#16 } := rfl
theorem test_A3_addImm_keeps_its_register : Runs { base with x := 0x0F#8 } [0x81#8, 0x01#8] fun s =>
    { s with a := 0x10#8, pc := 2#16 } := rfl
theorem test_A5_addReg : Runs { base with b := 0x0A#8, x := 5#8 } [0xC6#8, 0x01#8] fun s =>
    { s with a := 0x0F#8, pc := 2#16 } := rfl
theorem test_A7_addReg_masks_its_source : Runs { base with a := 3#8 } [0xC0#8, 0x08#8] fun s =>
    { s with a := 6#8, pc := 2#16 } := rfl
theorem test_A8_subImm_wraps : Runs { base with a := 1#8 } [0x88#8, 0x02#8] fun s => { s with a := 0xFF#8, pc := 2#16 } := rfl
theorem test_A11_subReg_order : Runs { base with x := 3#8, y := 5#8 } [0xC9#8, 0x02#8] fun s =>
    { s with a := 0xFE#8, pc := 2#16 } := rfl
theorem test_A16_mulImm_wraps : Runs { base with a := 0xFF#8 } [0x90#8, 0xFF#8] fun s => { s with a := 1#8, pc := 2#16 } := rfl
theorem test_A17_mulReg_drops_the_high_half : Runs { base with x := 0x11#8, y := 0x10#8, b := 9#8 } [0xD1#8, 0x02#8] fun s =>
    { s with a := 0x10#8, pc := 2#16 } := rfl
theorem test_A29_divImm : Runs { base with a := 0xFF#8 } [0x98#8, 0x02#8] fun s =>
    { s with a := 0x7F#8, b := 1#8, pc := 2#16 } := rfl
theorem test_A22_divImm_by_zero : Runs { base with a := 7#8, b := 0x33#8 } [0x98#8, 0x00#8] fun s =>
    { s with pc := 2#16, run := .halted (.fault .divideByZero) } := rfl
theorem test_A32_divReg_reads_before_writing : Runs { base with a := 3#8, b := 0x64#8 } [0xDE#8, 0x00#8] fun s =>
    { s with a := 0x21#8, b := 1#8, pc := 2#16 } := rfl
theorem test_A33_divReg_by_zero_low_pc : Runs { base with pc := 0xFE#16, a := 7#8 } [0xD8#8, 0x04#8] fun s =>
    { s with pc := 0x100#16, run := .halted (.fault .divideByZero) } := rfl

theorem test_L1_andImm : Runs { base with a := 0xAB#8 } [0xA0#8, 0x0F#8] fun s => { s with a := 0x0B#8, pc := 2#16 } := rfl
theorem test_L4_andReg : Runs { base with x := 0xCC#8, y := 0xAA#8 } [0xE1#8, 0x02#8] fun s =>
    { s with a := 0x88#8, pc := 2#16 } := rfl
theorem test_L5_orImm : Runs { base with a := 0x0B#8 } [0xA8#8, 0xF0#8] fun s => { s with a := 0xFB#8, pc := 2#16 } := rfl
theorem test_L6_orReg : Runs { base with x := 0xCC#8, y := 0xAA#8 } [0xE9#8, 0x02#8] fun s =>
    { s with a := 0xEE#8, pc := 2#16 } := rfl
theorem test_L11_xorImm_keeps_its_register : Runs { base with x := 0x3C#8 } [0xB9#8, 0x0F#8] fun s =>
    { s with a := 0x33#8, pc := 2#16 } := rfl
theorem test_L9_xorReg : Runs { base with x := 0xCC#8, y := 0xAA#8 } [0xF9#8, 0x02#8] fun s =>
    { s with a := 0x66#8, pc := 2#16 } := rfl
theorem test_L13_notImm_writes_its_register : Runs base [0xB1#8, 0x00#8] fun s => { s with x := 0xFF#8, pc := 2#16 } := rfl
theorem test_L20_notImm_to_flg : Runs base [0xB5#8, 0xFE#8] fun s => { s with flg := 1#8, pc := 2#16 } := rfl
theorem test_L14_notReg_keeps_its_source : Runs { base with a := 0x0F#8 } [0xF1#8, 0x00#8] fun s =>
    { s with x := 0xF0#8, pc := 2#16 } := rfl
theorem test_L17_notReg_to_pc : Runs { base with pc := 0x300#16, a := 0xF0#8 } [0xF4#8, 0x00#8] fun s =>
    { s with pc := 0x0F#16 } := rfl

theorem test_Y7_Y5_Y8_numerals :
    decimal 0#8 = [0x30#8] ∧ decimal 5#8 = [0x35#8] ∧ decimal 100#8 = [0x31#8, 0x30#8, 0x30#8] := ⟨rfl, rfl, rfl⟩

/-! ### Host operations: vectors H1, H2, H7 -/

theorem test_H1_create :
    create { memSize := 1024, spInit := 0x01F0#16, entry := 0#16 } = .ok { base with
      params := { memSize := 1024, spInit := 0x01F0#16, entry := 0#16 }, sp := 0x01F0#16 } := rfl
theorem test_H2_load_too_long : load [0x20#8, 0x01#8, 0x20#8, 0x02#8, 0x40#8] (sized 4 base) = .error .loadError := rfl
theorem test_H7_fetch_outside_keeps_pc : step { base with pc := 0x400#16 } =
    .next { base with pc := 0x400#16, run := .halted (.fault .memoryFault) } := rfl

/-! ### Witnesses: for every statement with hypotheses, a state that meets them, each clause at an end of its range -/

/-- The largest memory, with `pc` on its last byte: the one place where the increment wraps (decision D9). -/
def topOfMemory : State := { sized 65536 base with pc := 0xFFFF#16 }

theorem witness_MemoryReadsAndWritesOneByteInBounds :
    base.params.memSize ≤ 0x400 ∧ 0x3FF < base.params.memSize ∧ 0x3FE ≠ 0x3FF := by decide

theorem witness_PairAddressIsXHighYLow :
    State.memRead { base with x := 3#8, y := 0xFF#8, mem := [(0x3FF, 7#8)] } (3 * 256 + 255) = .ok 7#8 := rfl

theorem witness_FetchByteMovesPcOnlyOnSuccess :
    base.params.memSize ≤ (State.pc { base with pc := 0x400#16 }).toNat ∧
    State.memRead { base with mem := [(0x3FF, 7#8)] } 0x3FF = .ok 7#8 ∧
    topOfMemory.memRead topOfMemory.pc.toNat = .ok 0#8 := ⟨by decide, rfl, rfl⟩

theorem witness_FetchAddressIsTwoBytesHighFirst :
    fetch8 { base with pc := 0x400#16 } = .raised .memoryFault { base with pc := 0x400#16 } ∧
    fetch8 { base with pc := 0x3FF#16 } = .got 0#8 { base with pc := 0x400#16 } ∧
    fetch8 { base with pc := 0x3FE#16 } = .got 0#8 { base with pc := 0x3FF#16 } ∧
    fetch8 topOfMemory = .got 0#8 { topOfMemory with pc := 0#16 } ∧
    fetch8 { topOfMemory with pc := 0#16 } = .got 0#8 { topOfMemory with pc := 1#16 } := ⟨rfl, rfl, rfl, rfl, rfl⟩

theorem witness_IgnoredFieldsChangeNothing :
    ((0x08#8 : Byte).toNat / 8 = (0x0F#8 : Byte).toNat / 8 ∧ (0x08#8 : Byte).toNat / 8 ∈ [0, 1, 2, 3, 7, 8, 9, 10, 11, 15]) ∧
    ((0x67#8 : Byte).toNat / 8 ∈ [12, 13] ∧ (0xFE#8 : Byte).toNat % 8 = (0x06#8 : Byte).toNat % 8) ∧
    24 ≤ (0xC0#8 : Byte).toNat / 8 := by decide

theorem witness_DecoderTakesTheLengthOfTheFamily :
    (0x08#8 : Byte).toNat / 8 ∈ [1, 2, 3, 6, 7] ∧ 3 ≤ [0x12#8, 0x34#8].length + 1 ∧ [0x12#8].length + 1 < 3 ∧
    (0xFF#8 : Byte).toNat / 8 ≥ 16 ∧ 2 ≤ [0x03#8].length + 1 := by decide

theorem witness_StepRunsTheDecodedInstruction :
    let s := vector { base with pc := 0x3FD#16 } [0x08#8, 0x12#8, 0x34#8]
    (s.run = .running ∧ decode [0x08#8, 0x12#8, 0x34#8] = .ok (.bneImm 0x1234#16, []) ∧
      codeAt s s.pc [0x08#8, 0x12#8, 0x34#8] = true) ∧
    codeAt topOfMemory topOfMemory.pc [0#8] = true ∧ decode [0#8] = .ok (.invalid, []) := by decide

theorem witness_StepHaltsOnAMissingByte :
    (let s := vector { base with pc := 0x3FF#16 } [0x20#8]
     s.run = .running ∧ codeAt s s.pc [0x20#8] = true ∧ [0x20#8].length < instrLength 0x20#8 ∧
      s.params.memSize ≤ (s.pc + 1#16).toNat) ∧
    (let s : State := { base with pc := 0x400#16 }
     codeAt s s.pc [] = true ∧ ([] : List Byte).head? = none ∧ s.params.memSize ≤ (s.pc + 0#16).toNat) ∧
    (let s := vector { base with pc := 0x3FE#16 } [0x18#8, 0x00#8]
     codeAt s s.pc [0x18#8, 0x00#8] = true ∧ 2 < instrLength 0x18#8 ∧ s.params.memSize ≤ (s.pc + 2#16).toNat) := by decide

theorem witness_HaltedMachineTakesNoStep :
    State.run { base with run := .halted .ok } = .halted .ok ∧
    State.run { base with run := .halted (.fault .memoryFault) } = .halted (.fault .memoryFault) := ⟨rfl, rfl⟩

theorem witness_EveryInstructionAndEveryRunningStepHasANextState : base.run = .running := rfl

theorem base_inv : base.Inv where
  params := rfl
  canonical := by decide
  inside := by decide
  noLoadError := by decide
  noSelectorFault := by decide
  exitCode := by decide

theorem witness_EveryStepKeepsTheMachineInvariant :
    base.Inv ∧ step base = .next { base with pc := 1#16, run := .halted (.fault .invalidOpcode) } := ⟨base_inv, rfl⟩

theorem witness_ResetAndCreationMeetTheMachineInvariant :
    Params.wf { memSize := 1, spInit := 0#16, entry := 0#16 } = true ∧
    Params.wf { memSize := 65536, spInit := 0xFFFF#16, entry := 0xFFFF#16 } = true := ⟨rfl, rfl⟩

theorem witness_DivPutsQuotientInAAndRemainderInB :
    (1#8 : Byte) ≠ 0#8 ∧ State.getReg { base with x := 0xFF#8 } .x ≠ 0#8 ∧ State.getReg { base with pc := 0x100#16 } .pc = 0#8 := by
  decide

/-- For PokeStoresOneByteAtItsAddress and PeekLoadsOneByteIntoA. -/
theorem witness_address_edges_of_poke_and_peek :
    (0x3FF#16 : Addr).toNat < base.params.memSize ∧ base.params.memSize ≤ (0x400#16 : Addr).toNat ∧
    (State.regAddr { base with x := 3#8, y := 0xFF#8 }).toNat < base.params.memSize ∧
    base.params.memSize ≤ (State.regAddr { base with x := 4#8 }).toNat := by decide

theorem witness_SyscallExitsOrRejectsTheNumber :
    base.a = 0#8 ∧ 3 ≤ (State.a { base with a := 3#8 }).toNat ∧ 3 ≤ (State.a { base with a := 255#8 }).toNat := by decide

/-- "Hi" and its NUL on the last three bytes of memory. -/
def hi : State := { base with a := 1#8, x := 3#8, y := 0xFD#8, mem := [(0x3FD, 0x48#8), (0x3FE, 0x69#8)] }

theorem witness_PrintStringWritesTheBytesBeforeTheNul :
    hi.a = 1#8 ∧
    (∀ (k : Nat) (h : k < [0x48#8, 0x69#8].length),
      hi.memRead (hi.regAddr.toNat + k) = .ok [0x48#8, 0x69#8][k] ∧ [0x48#8, 0x69#8][k] ≠ 0#8) ∧
    hi.memRead (hi.regAddr.toNat + [0x48#8, 0x69#8].length) = .ok 0#8 ∧
    State.memRead { base with a := 1#8 } ((State.regAddr { base with a := 1#8 }).toNat + 0) = .ok 0#8 := by
  refine ⟨rfl, fun k h => ?_, rfl, rfl⟩
  match k, h with
  | 0, _ => exact ⟨rfl, fun e => absurd e (by decide : (0x48#8 : Byte) ≠ 0#8)⟩
  | 1, _ => exact ⟨rfl, fun e => absurd e (by decide : (0x69#8 : Byte) ≠ 0#8)⟩

/-- The other clause of PrintStringWritesTheBytesBeforeTheNul. -/
theorem witness_PrintStringWithoutNul :
    let s : State := { base with a := 1#8, x := 4#8 }
    s.a = 1#8 ∧ ∀ k, s.regAddr.toNat ≤ k → s.memRead k ≠ .ok 0#8 := by
  refine ⟨rfl, fun k h => ?_⟩
  have : 1024 ≤ k := h
  simp [State.memRead, base, State.reset, State.initial, Params.default, this]

theorem witness_PrintNumberWritesTheByteInDecimal :
    hi.memRead hi.regAddr.toNat = .ok 0x48#8 ∧ State.a { hi with a := 2#8 } = 2#8 ∧
    base.params.memSize ≤ (State.regAddr { base with a := 2#8, x := 4#8 }).toNat := ⟨rfl, rfl, by decide⟩

/-- For ImmediateBranchesRunFromTheirBytes and ImmediatePokeAndPeekRunFromTheirBytes: code on the last bytes of memory is
all there. -/
theorem witness_whole_code_at_the_end :
    (let s := vector { base with pc := 0x3FD#16 } [0x0F#8, 0xFF#8, 0x00#8]
     s.run = .running ∧ codeAt s s.pc [0x0F#8, 0xFF#8, 0x00#8] = true ∧ (0x0F#8 : Byte).toNat / 8 = 1) ∧
    (let s := vector { base with pc := 0x3FD#16 } [0x17#8, 0x00#8, 0x10#8]
     codeAt s s.pc [0x17#8, 0x00#8, 0x10#8] = true ∧ (0x17#8 : Byte).toNat / 8 = 2) ∧
    (let s := vector { base with pc := 0x3FD#16 } [0x18#8, 0x00#8, 0x40#8]
     codeAt s s.pc [0x18#8, 0x00#8, 0x40#8] = true ∧ (0x18#8 : Byte).toNat / 8 = 3) ∧
    (let s := vector { base with pc := 0x3FD#16 } [0x34#8, 0x03#8, 0xFF#8]
     codeAt s s.pc [0x34#8, 0x03#8, 0xFF#8] = true ∧ (0x34#8 : Byte).toNat = 0x30 + Reg.pc.selector.toNat ∧
       0x03 * 256 + 0xFF < s.params.memSize) ∧
    (let s := vector { base with pc := 0x3FD#16 } [0x3F#8, 0x03#8, 0xFF#8]
     codeAt s s.pc [0x3F#8, 0x03#8, 0xFF#8] = true ∧ (0x3F#8 : Byte).toNat / 8 = 7 ∧ s.memRead 0x3FF = .ok 0xFF#8) ∧
    (let s := vector { base with pc := 0x3FD#16 } [0x38#8, 0x04#8, 0x00#8]
     codeAt s s.pc [0x38#8, 0x04#8, 0x00#8] = true ∧ (0x38#8 : Byte).toNat / 8 = 7 ∧ s.params.memSize ≤ 0x04 * 256) := by
  decide

/-- For the five statements named Immediate…FromTheirBytes or FromItsBytes: the opcode byte, or the opcode byte and the high
address byte, on the last bytes of memory. -/
theorem witness_missing_operand_byte :
    (∀ op ∈ [0x08#8, 0x10#8, 0x18#8, 0x30#8, 0x38#8, 0x80#8, 0x88#8, 0x90#8, 0x98#8, 0xA0#8, 0xA8#8],
      let s := vector { base with pc := 0x3FF#16 } [op]
      s.run = .running ∧ codeAt s s.pc [op] = true ∧ s.params.memSize ≤ (s.pc + 1).toNat) ∧
    (∀ op ∈ [0x08#8, 0x10#8, 0x18#8, 0x30#8, 0x38#8],
      let s := vector { base with pc := 0x3FE#16 } [op, 0x00#8]
      s.run = .running ∧ codeAt s s.pc [op, 0x00#8] = true ∧ s.params.memSize ≤ (s.pc + 2).toNat) := by
  decide

/-- For ImmediateAddSubMulRunFromTheirBytes, ImmediateDivRunsFromItsBytes and ImmediateAndOrRunFromTheirBytes: code on the last two bytes of memory, first and last selector, divisor 0 and 255. -/
theorem witness_immediate_operand_code :
    ∀ op ∈ [0x80#8, 0x88#8, 0x90#8, 0x98#8, 0xA0#8, 0xA8#8], ∀ r ∈ [Reg.a, .spb], ∀ imm ∈ [0x00#8, 0xFF#8],
      let op' : Byte := op + BitVec.ofNat 8 r.selector.toNat
      let s := vector { base with pc := 0x3FE#16 } [op', imm]
      s.run = .running ∧ codeAt s s.pc [op', imm] = true ∧ op'.toNat = op.toNat + r.selector.toNat := by
  decide

theorem witness_PairBeqJmpAndPeekRunFromTheirByte :
    ∀ op ∈ [0x57#8, 0x58#8, 0x7F#8],
      let s := vector { base with pc := 0x3FF#16, x := 3#8, y := 0xFF#8 } [op]
      s.run = .running ∧ codeAt s s.pc [op] = true ∧ (op.toNat / 8 = 10 ∨ op.toNat / 8 = 11 ∨ op.toNat / 8 = 15) ∧
      s.memRead (s.x.toNat * 256 + s.y.toNat) = .ok op ∧
      s.params.memSize ≤ (State.x { s with x := 4#8, y := 0#8 }).toNat * 256 := by
  decide

/-- The first address outside memory as a jump target, for both statements that have that clause; and, for the PEEK clause of
ImmediatePokeAndPeekRunFromTheirBytes, an address with no entry. -/
theorem witness_target_outside_and_unlisted_address :
    (let s := vector base [0x18#8, 0x04#8, 0x00#8]
     codeAt s s.pc [0x18#8, 0x04#8, 0x00#8] = true ∧ s.params.memSize ≤ 0x04 * 256 + 0) ∧
    (let s := vector { base with x := 4#8 } [0x58#8]
     codeAt s s.pc [0x58#8] = true ∧ s.params.memSize ≤ s.x.toNat * 256 + s.y.toNat) ∧
    (let s := vector base [0x38#8, 0x03#8, 0xFF#8]
     codeAt s s.pc [0x38#8, 0x03#8, 0xFF#8] = true ∧ 0x3FF < s.params.memSize ∧ ∀ c ∈ s.mem, c.1 ≠ 0x3FF) := by
  decide

theorem witness_InvalidOpcodeIsRaisedByCodeZeroAlone :
    (∀ op ∈ [0x00#8, 0x07#8], codeAt (vector base [op]) 0#16 [op] = true ∧ op.toNat < 8) ∧
    step base = .next { base with pc := 1#16, run := .halted (.fault .invalidOpcode) } := ⟨by decide, rfl⟩

theorem witness_UnknownSyscallIsRaisedBySyscallNumbersFromThree :
    (∀ n ∈ [3#8, 255#8], codeAt (vector { base with a := n } [0x47#8]) 0#16 [0x47#8] = true ∧ 3 ≤ n.toNat) ∧
    Runs { base with a := 3#8 } [0x47#8] fun s => { s with pc := 1#16, run := .halted (.fault .unknownSyscall) } :=
  ⟨by decide, rfl⟩

/-- The whole-machine statements: a step, the instruction it runs, and the condition on it. -/
theorem witness_StepWritesOnlyTheRegistersOfItsRow :
    let s := vector { base with a := 7#8 } [0x98#8, 0x02#8]
    step s = .next { s with a := 3#8, b := 1#8, pc := 2#16 } ∧ currentInstr s = some (.divImm .a 2#8) ∧
    Reg.x ≠ .pc ∧ Instr.mayWrite (.divImm .a 2#8) .x = false := ⟨rfl, rfl, by decide, rfl⟩

theorem witness_RegistersOutsideItsRowDoNotInfluenceAnInstruction :
    Instr.mayRead (.addImm .a 2#8) .b = false ∧ Instr.mayWrite (.addImm .a 2#8) .b = false ∧
    exec (.addImm .a 2#8) base = .next { base with a := 2#8 } := ⟨rfl, rfl, rfl⟩

theorem witness_OnlyPokeChangesMemoryAndOnlyItsByte :
    let s := vector { base with a := 7#8 } [0x30#8, 0x00#8, 0x20#8]
    (step s = .next { s with mem := [(0, 0x30#8), (2, 0x20#8), (0x20, 7#8)], pc := 3#16 } ∧
      currentInstr s = some (.pokeImm .a 0x20#16) ∧ 0x21 ≠ (0x20#16 : Addr).toNat) ∧
    currentInstr (vector base [0x70#8]) = some (.pokeReg .a) ∧ 1 ≠ (vector base [0x70#8]).regAddr.toNat :=
  ⟨⟨rfl, rfl, by decide⟩, rfl, by decide⟩

theorem witness_ConsoleOnlyGrowsAndOnlyInPrintSyscalls :
    Runs { base with a := 2#8, y := 0x20#8, out := [0x41#8] } [0x40#8] fun s =>
      { s with out := [0x41#8, 0x30#8], pc := 1#16 } := rfl

theorem witness_HaltedOkIsReachedOnlyByExit :
    Runs { base with pc := 9#16 } [0x47#8] fun s => { s with pc := 0x0A#16, run := .halted .ok } := rfl

theorem witness_FaultingStepChangesOnlyPcAndRunState :
    (Runs { base with a := 7#8 } [0x98#8, 0x00#8] fun s => { s with pc := 2#16, run := .halted (.fault .divideByZero) }) ∧
    currentInstr (vector base [0x98#8, 0x00#8]) = some (.divImm .a 0#8) ∧
    (Runs { base with pc := 0x3FE#16 } [0x18#8, 0x00#8] fun s =>
      { s with pc := 0x400#16, run := .halted (.fault .memoryFault) }) ∧
    currentInstr (vector { base with pc := 0x3FE#16 } [0x18#8, 0x00#8]) = none := ⟨rfl, rfl, rfl, rfl⟩

theorem witness_EachInstructionRaisesOnlyItsOwnFaults :
    exec .invalid base = .next { base with run := .halted (.fault .invalidOpcode) } ∧
    exec (.divImm .a 0#8) base = .next { base with run := .halted (.fault .divideByZero) } ∧
    exec .syscall { base with a := 3#8 } = .next { base with a := 3#8, run := .halted (.fault .unknownSyscall) } ∧
    exec (.peekImm 0x400#16) base = .next { base with run := .halted (.fault .memoryFault) } := ⟨rfl, rfl, rfl, rfl⟩

theorem witness_PcAfterAStepWithoutFault :
    let s := vector { base with pc := 0x1FE#16 } [0x64#8, 0x04#8]
    step s = .next { s with pc := 0#16 } ∧ currentInstr s = some (.movReg .pc .pc) ∧
    ∀ c, s.run ≠ .halted (.fault c) := ⟨rfl, rfl, fun _ e => RunState.noConfusion e⟩

/-- Program P4: the store is to the operand byte of the MOV that follows it. -/
theorem witness_StoreIntoTheInstructionStreamIsFetchedNext :
    let s : State := { base with pc := 5#16, a := 0x2A#8, mem := [(5, 0x21#8)] }
    let t : State := { s with mem := [(5, 0x21#8), (6, 0x2A#8)] }
    (6#16 : Addr).toNat < s.params.memSize ∧ exec (.pokeImm .a 6#16) s = .next t ∧ s.run = .running ∧
    codeAt s s.pc [0x21#8, 0x00#8] = true ∧ (6#16 : Addr) = s.pc + BitVec.ofNat 16 1 ∧
    decode ([0x21#8, 0x00#8].set 1 (s.getReg .a)) = .ok (.movImm .x 0x2A#8, []) ∧
    step t = .next { t with x := 0x2A#8, pc := 7#16 } := ⟨by decide, rfl, rfl, rfl, rfl, rfl, rfl⟩

/-- The same statement: each of the three bytes of a BEQ on the last bytes of memory, stored to through the pair. -/
theorem witness_store_to_each_byte_of_the_next_instruction :
    ∀ k ∈ [0, 1, 2],
      let s := vector { base with pc := 0x3FD#16, x := 3#8, y := 0xFD#8 + BitVec.ofNat 8 k, a := 0x18#8 } [0x10#8, 0x00#8, 0x00#8]
      s.regAddr = s.pc + BitVec.ofNat 16 k ∧ s.regAddr.toNat < s.params.memSize ∧ s.run = .running ∧
      codeAt s s.pc [0x10#8, 0x00#8, 0x00#8] = true ∧ k < [0x10#8, 0x00#8, 0x00#8].length ∧
      ∃ i ∈ [Instr.jmpImm 0#16, .beqImm 0x1800#16, .beqImm 0x18#16],
        decode ([0x10#8, 0x00#8, 0x00#8].set k (s.getReg .a)) = .ok (i, []) := by
  decide

theorem witness_store_through_the_pair_answers_a_next_state :
    let s : State := { base with pc := 0x3FF#16, x := 3#8, y := 0xFF#8, a := 7#8 }
    exec (.pokeReg .a) s = .next { s with mem := [(0x3FF, 7#8)] } ∧ s.regAddr = s.pc := ⟨rfl, rfl⟩

theorem witness_StepKeepsParametersAndNeverRaisesHostOrSelectorFaults :
    step base = .next { base with pc := 1#16, run := .halted (.fault .invalidOpcode) } := rfl

theorem witness_CreateGivesTheResetStateOfItsParameters :
    (let p : Params := { memSize := 65536, spInit := 1#16, entry := 0xFFFF#16 }; 1 ≤ p.memSize ∧ p.memSize ≤ 65536) ∧
    (let p : Params := { memSize := 0, spInit := 0#16, entry := 0#16 }; p.memSize = 0) ∧
    (let p : Params := { memSize := 65537, spInit := 0#16, entry := 0#16 }; 65536 < p.memSize) := by decide

theorem witness_LoadCopiesTheImageToAddressZero :
    [1#8, 2#8].length ≤ (sized 2 base).params.memSize ∧ (sized 2 base).params.memSize < [1#8, 2#8, 3#8].length ∧
    ([] : List Byte).length ≤ (sized 1 base).params.memSize := by decide

theorem witness_HostOperationsOutOfOrderAreRefused :
    (let h : Session := { phase := .loaded, machine := base }; h.phase ≠ .created ∧ ∀ c, h.phase ≠ .loadFailed c) ∧
    (let h : Session := { phase := .created, machine := sized 2 base }
     h.phase = .created ∧ h.machine.params.memSize < [1#8, 2#8, 3#8].length) ∧
    (let h : Session := { phase := .ran, machine := { base with run := .halted .ok } }
     (∀ c, h.phase ≠ .loadFailed c) ∧ h.machine.run = .halted .ok) :=
  ⟨⟨by decide, fun _ e => Phase.noConfusion e⟩, by decide, fun _ e => Phase.noConfusion e, rfl⟩

theorem witness_RunOutcomeDoesNotDependOnTheBudget :
    1 ≤ 2 ∧ runFor 1 base =
      .finished (.fault .invalidOpcode) { base with pc := 1#16, run := .halted (.fault .invalidOpcode) } :=
  ⟨by decide, rfl⟩

theorem witness_ResultAfterAnOkRunIsZero :
    let s := vector base [0x40#8]
    s.run = .running ∧ runFor 1 s = .finished .ok { s with pc := 1#16, run := .halted .ok } := ⟨rfl, rfl⟩

theorem witness_EveryStateOfALoadedMachineMeetsTheInvariant :
    create Params.default = .ok base ∧ load [0x40#8] base = .ok (vector base [0x40#8]) ∧
    Reaches (vector base [0x40#8]) { vector base [0x40#8] with pc := 1#16, run := .halted .ok } :=
  ⟨rfl, rfl, .step .start rfl⟩

theorem witness_FetchWordIsRunByTheNextStep :
    let s : State := { base with pc := 0x3FD#16 }
    s.run = .running ∧ s.pc.toNat + 3 ≤ s.params.memSize ∧ s.params.memSize ≤ 65536 ∧
    decodeTableWord 24 0x341208 = some (.bneImm 0x1234#16) := by decide

end Sys2Proof.Tests
end

section
/-! The rules of the two access primitives together: what a read returns after a successful write (20_memory.md rules
R38, R39), and obligation O3 assembled from them. -/

namespace Sys2Proof.Machine

theorem memRead_memWrite_same {s t : State} {n : Nat} {v : Byte} (h : s.memWrite n v = .ok t) : t.memRead n = .ok v := by
  obtain ⟨hn, rfl⟩ := memWrite_ok_iff.mp h
  exact memRead_ok_iff.mpr ⟨hn, Memory.read_write_same s.mem n v⟩

/-- In bounds or not, another address reads as before: the write keeps the size that the bounds test looks at. -/
theorem memRead_memWrite_other {s t : State} {n k : Nat} {v : Byte} (h : s.memWrite n v = .ok t) (hk : k ≠ n) :
    t.memRead k = s.memRead k := by
  obtain ⟨-, rfl⟩ := memWrite_ok_iff.mp h
  simp only [State.memRead, Memory.read_write_other s.mem n v hk]

/-- A successful write changes memory only. -/
theorem memWrite_frame {s t : State} {n : Nat} {v : Byte} (h : s.memWrite n v = .ok t) : t = { s with mem := t.mem } := by
  obtain ⟨-, rfl⟩ := memWrite_ok_iff.mp h
  rfl

/-- Settles O3: outside by the bounds test, inside by the read-after-write rules and the frame of a write. -/
theorem memoryReadsAndWritesOneByteInBounds : Obligations.MemoryReadsAndWritesOneByteInBounds := by
  intro s n v
  refine ⟨fun hout => ⟨memRead_outside hout, memWrite_outside hout⟩, fun hin => ⟨memRead_inside hin, ?_⟩⟩
  have hw := memWrite_inside (v := v) hin
  exact ⟨_, hw, memRead_memWrite_same hw, fun _ hk => memRead_memWrite_other hw hk, memWrite_frame hw⟩

end Sys2Proof.Machine
end

section
/-! `Fetch16()` by what its two `Fetch8()` do (30_encoding.md rule R68), and obligation O6 assembled from these rules. -/

namespace Sys2Proof.Machine

theorem fetch16_of_first_raised {s u : State} {c : Cause} (h : fetch8 s = .raised c u) : fetch16 s = .raised c u := by
  simp only [fetch16, h]

theorem fetch16_of_second_raised {s t u : State} {hi : Byte} {c : Cause} (hfst : fetch8 s = .got hi t)
    (hsnd : fetch8 t = .raised c u) : fetch16 s = .raised c u := by
  simp only [fetch16, hfst, hsnd]

theorem fetch16_of_got {s t u : State} {hi lo : Byte} (hfst : fetch8 s = .got hi t) (hsnd : fetch8 t = .got lo u) :
    fetch16 s = .got (wordOfBytes hi lo) u := by
  simp only [fetch16, hfst, hsnd]

/-- A fault of the second fetch leaves `pc` past the high byte: the first fetch moved it, the faulting one did not. -/
theorem pc_of_second_raised {s t u : State} {hi : Byte} {c : Cause} (hfst : fetch8 s = .got hi t)
    (hsnd : fetch8 t = .raised c u) : u.pc = s.pc + 1 := by
  obtain ⟨-, -, rfl⟩ := fetch8_got_iff.mp hfst
  obtain ⟨-, -, rfl⟩ := fetch8_raised_iff.mp hsnd
  rfl

/-- Settles O6: one rule of `fetch16` for each outcome of its two fetches, the address by the value of `wordOfBytes`. -/
theorem fetchAddressIsTwoBytesHighFirst : Obligations.FetchAddressIsTwoBytesHighFirst := by
  intro s
  refine ⟨fun _ _ => fetch16_of_first_raised, fun hi t hfst => ⟨fun _ _ hsnd => ?_, fun lo _ hsnd => ?_⟩⟩
  · exact ⟨fetch16_of_second_raised hfst hsnd, pc_of_second_raised hfst hsnd⟩
  · exact ⟨_, fetch16_of_got hfst hsnd, wordOfBytes_toNat hi lo⟩

end Sys2Proof.Machine
end

section
/-! The step by the bytes at `pc`: it runs the instruction that stands there, or halts past the bytes there are
(30_encoding.md rules R67, R69; 60_exceptions.md rule R135). -/

namespace Sys2Proof.Machine

theorem step_of_got {s t : State} {i : Instr} (hrun : s.run = .running) (hf : fetchInstr s = .got i t) :
    step s = exec i t := by
  simp only [step, hrun, hf]

theorem step_of_raised {s t : State} {c : Cause} (hrun : s.run = .running) (hf : fetchInstr s = .raised c t) :
    step s = .next (raise c t) := by
  simp only [step, hrun, hf]

theorem step_of_codeAt {s : State} {op : Byte} {rest : List Byte} {i : Instr} (hrun : s.run = .running)
    (hcode : codeAt s s.pc (op :: rest) = true) (hl : instrLength op = rest.length + 1)
    (hdec : decodeWord op (rest.getD 0 0#8) (rest.getD 1 0#8) = i) :
    step s = exec i (s.advance (rest.length + 1)) :=
  step_of_got hrun (hdec ▸ fetchInstr_of_codeAt op rest hcode hl)

theorem step_of_codeAt_short {s : State} {op : Byte} {rest : List Byte} (hrun : s.run = .running)
    (hcode : codeAt s s.pc (op :: rest) = true) (hl : rest.length + 1 < instrLength op)
    (hout : s.params.memSize ≤ (s.advance (rest.length + 1)).pc.toNat) :
    step s = .next (raise .memoryFault (s.advance (rest.length + 1))) :=
  step_of_raised hrun (fetchInstr_of_codeAt_short op rest hcode hl hout)

/-- Where a jump outside memory ends (rule R82): the fetch faults on the opcode byte itself. -/
theorem step_of_pc_outside {s : State} (hrun : s.run = .running) (hout : s.params.memSize ≤ s.pc.toNat) :
    step s = .next (raise .memoryFault s) :=
  step_of_raised hrun (by simp only [fetchInstr, fetch8_outside hout])

end Sys2Proof.Machine
end

section
/-! The opcode byte of a branch or of PEEK by its family code, whatever its selector bits (30_encoding.md rules R56,
R57, R66), and the address its operand forms as a number. -/

namespace Sys2Proof

theorem instrLength_of_i16 {op : Byte} (h : op.toNat / 8 ∈ [1, 2, 3, 6, 7]) : instrLength op = 3 := by
  simp only [List.mem_cons, List.not_mem_nil, or_false] at h
  obtain h | h | h | h | h := h <;> simp [instrLength, formatOf, familyCode_toNat, h, Format.length]

theorem instrLength_of_rp {op : Byte} (h : op.toNat / 8 ∈ [9, 10, 11, 14, 15]) : instrLength op = 1 := by
  simp only [List.mem_cons, List.not_mem_nil, or_false] at h
  obtain h | h | h | h | h := h <;> simp [instrLength, formatOf, familyCode_toNat, h, Format.length]

theorem decodeWord_bneImm {op : Byte} (b1 b2 : Byte) (h : op.toNat / 8 = 1) :
    decodeWord op b1 b2 = .bneImm (wordOfBytes b1 b2) := by
  simp only [decodeWord, familyCode_toNat, h]

theorem decodeWord_beqImm {op : Byte} (b1 b2 : Byte) (h : op.toNat / 8 = 2) :
    decodeWord op b1 b2 = .beqImm (wordOfBytes b1 b2) := by
  simp only [decodeWord, familyCode_toNat, h]

theorem decodeWord_jmpImm {op : Byte} (b1 b2 : Byte) (h : op.toNat / 8 = 3) :
    decodeWord op b1 b2 = .jmpImm (wordOfBytes b1 b2) := by
  simp only [decodeWord, familyCode_toNat, h]

theorem decodeWord_beqReg {op : Byte} (b1 b2 : Byte) (h : op.toNat / 8 = 10) : decodeWord op b1 b2 = .beqReg := by
  simp only [decodeWord, familyCode_toNat, h]

theorem decodeWord_jmpReg {op : Byte} (b1 b2 : Byte) (h : op.toNat / 8 = 11) : decodeWord op b1 b2 = .jmpReg := by
  simp only [decodeWord, familyCode_toNat, h]

theorem decodeWord_peekReg {op : Byte} (b1 b2 : Byte) (h : op.toNat / 8 = 15) : decodeWord op b1 b2 = .peekReg := by
  simp only [decodeWord, familyCode_toNat, h]

theorem wordOfBytes_eq_ofNat (hi lo : Byte) : wordOfBytes hi lo = BitVec.ofNat 16 (hi.toNat * 256 + lo.toNat) := by
  rw [← wordOfBytes_toNat, BitVec.ofNat_toNat, BitVec.setWidth_eq]

end Sys2Proof
end

section
/-! What the branches and PEEK do once fetched (40_branch.md rule R75, 42_memory_access.md rule R93): the condition is
the parity of `FLG`, and a transfer changes `pc` alone. -/

namespace Sys2Proof.Machine

theorem compareFlag_eq_decide (s : State) : s.compareFlag = decide (s.flg.toNat % 2 = 1) := by
  simp only [State.compareFlag, BitVec.getLsbD, Nat.testBit_zero]

/-- A transfer writes `pc` and nothing else, taken or not. -/
theorem branchIf_eq (taken : Bool) (w : Addr) (s : State) :
    branchIf taken w s = { s with pc := if taken then w else s.pc } := by
  cases taken <;> rfl

theorem branchIf_compareFlag (w : Addr) (s : State) :
    branchIf s.compareFlag w s = { s with pc := if s.flg.toNat % 2 = 1 then w else s.pc } := by
  simp only [branchIf_eq, compareFlag_eq_decide, decide_eq_true_eq]

theorem branchIf_not_compareFlag (w : Addr) (s : State) :
    branchIf (!s.compareFlag) w s = { s with pc := if s.flg.toNat % 2 = 0 then w else s.pc } := by
  simp only [branchIf_eq, compareFlag_eq_decide, Bool.not_eq_true', decide_eq_false_iff_not, Nat.mod_two_not_eq_one]

theorem exec_bneImm (addr : Addr) (s : State) :
    exec (.bneImm addr) s = .next { s with pc := if s.flg.toNat % 2 = 0 then addr else s.pc } :=
  congrArg _ (branchIf_not_compareFlag addr s)

theorem exec_beqImm (addr : Addr) (s : State) :
    exec (.beqImm addr) s = .next { s with pc := if s.flg.toNat % 2 = 1 then addr else s.pc } :=
  congrArg _ (branchIf_compareFlag addr s)

theorem exec_jmpImm (addr : Addr) (s : State) : exec (.jmpImm addr) s = .next { s with pc := addr } := rfl

theorem exec_beqReg (s : State) :
    exec .beqReg s = .next { s with pc := if s.flg.toNat % 2 = 1 then s.regAddr else s.pc } :=
  congrArg _ (branchIf_compareFlag s.regAddr s)

theorem exec_jmpReg (s : State) : exec .jmpReg s = .next { s with pc := s.regAddr } := rfl

theorem loadA_of_memRead {ea : Addr} {s : State} {v : Byte} (h : s.memRead ea.toNat = .ok v) :
    loadA ea s = .next { s with a := v } := by
  simp only [loadA, h]

theorem loadA_outside {ea : Addr} {s : State} (h : s.params.memSize ≤ ea.toNat) :
    loadA ea s = .next (raise .memoryFault s) := by
  simp only [loadA, memRead_outside h]

theorem regAddr_eq_ofNat (s : State) : s.regAddr = BitVec.ofNat 16 (s.x.toNat * 256 + s.y.toNat) :=
  wordOfBytes_eq_ofNat s.x s.y

theorem regAddr_toNat (s : State) : s.regAddr.toNat = s.x.toNat * 256 + s.y.toNat :=
  wordOfBytes_toNat s.x s.y

/-- PEEK through the pair reads the byte that the pair names. -/
theorem exec_peekReg_of_memRead {s : State} {v : Byte} (h : s.memRead (s.x.toNat * 256 + s.y.toNat) = .ok v) :
    exec .peekReg s = .next { s with a := v } :=
  loadA_of_memRead (by rwa [pairAddress, regAddr_toNat])

theorem exec_peekReg_outside {s : State} (h : s.params.memSize ≤ s.x.toNat * 256 + s.y.toNat) :
    exec .peekReg s = .next (raise .memoryFault s) :=
  loadA_outside (by rwa [pairAddress, regAddr_toNat])

end Sys2Proof.Machine
end

section
/-! Obligations O33 and O38: a branch or a load through the pair, from its bytes in memory to the next state. -/

namespace Sys2Proof.Machine

/-- Settles O33: with all three bytes there the step is the branch with `pc` past them; with fewer, the fetch faults
past those there are. -/
theorem immediateBranchesRunFromTheirBytes : Obligations.ImmediateBranchesRunFromTheirBytes := by
  intro s op hi lo hrun target
  have htarget : wordOfBytes hi lo = target := wordOfBytes_eq_ofNat hi lo
  refine ⟨fun hcode => ⟨fun hbne => ?_, fun hbeq => ?_, fun hjmp => ⟨?_, fun hout => ?_⟩⟩, fun hfam => ?_⟩
  · rw [step_of_codeAt hrun hcode (instrLength_of_i16 (by simp [hbne])) (decodeWord_bneImm hi lo hbne), htarget]
    exact exec_bneImm target (s.advance 3)
  · rw [step_of_codeAt hrun hcode (instrLength_of_i16 (by simp [hbeq])) (decodeWord_beqImm hi lo hbeq), htarget]
    exact exec_beqImm target (s.advance 3)
  · rw [step_of_codeAt hrun hcode (instrLength_of_i16 (by simp [hjmp])) (decodeWord_jmpImm hi lo hjmp), htarget]
    exact exec_jmpImm target (s.advance 3)
  · exact step_of_pc_outside (s := { s with pc := target }) hrun hout
  · have hlen : instrLength op = 3 := instrLength_of_i16 (by simp; omega)
    exact ⟨fun hcode hout => step_of_codeAt_short hrun hcode (by simp [hlen]) hout,
      fun hcode hout => step_of_codeAt_short hrun hcode (by simp [hlen]) hout⟩

/-- Settles O38: the step is the instruction with `pc` past its one byte, and the pair as a number is the address. -/
theorem pairBeqJmpAndPeekRunFromTheirByte : Obligations.PairBeqJmpAndPeekRunFromTheirByte := by
  intro s op hrun hcode pair
  have hpair : (s.advance 1).regAddr = BitVec.ofNat 16 pair := regAddr_eq_ofNat s
  refine ⟨fun hbeq => ?_, fun hjmp => ⟨?_, fun hout => ?_⟩, fun hpeek => ?_⟩
  · rw [step_of_codeAt hrun hcode (instrLength_of_rp (by simp [hbeq])) (decodeWord_beqReg _ _ hbeq), ← hpair]
    exact exec_beqReg (s.advance 1)
  · rw [step_of_codeAt hrun hcode (instrLength_of_rp (by simp [hjmp])) (decodeWord_jmpReg _ _ hjmp), ← hpair]
    exact exec_jmpReg (s.advance 1)
  · have htoNat : (BitVec.ofNat 16 pair).toNat = pair := by rw [← hpair]; exact regAddr_toNat s
    exact step_of_pc_outside (s := { s with pc := BitVec.ofNat 16 pair }) hrun (by rwa [htoNat])
  · rw [step_of_codeAt hrun hcode (instrLength_of_rp (by simp [hpeek])) (decodeWord_peekReg _ _ hpeek)]
    exact ⟨fun _ hread => exec_peekReg_of_memRead (s := s.advance 1) hread,
      fun hout => exec_peekReg_outside (s := s.advance 1) hout⟩

end Sys2Proof.Machine
end

section
/-! The opcode byte of POKE and PEEK immediate (30_encoding.md rules R54, R56), and the store and the load at an address
inside or outside memory (42_memory_access.md rules R89 to R91). -/

namespace Sys2Proof

/-- A family code in bits 7:3 and a selector number below it: the low three bits name the register. -/
theorem ofSelector_of_toNat {op : Byte} {r : Reg} {fam : Nat} (h : op.toNat = fam * 8 + r.selector.toNat) :
    Reg.ofSelector (selectorField op) = r := by
  have hfield : selectorField op = r.selector :=
    BitVec.eq_of_toNat_eq (by rw [selectorField_toNat, h]; have := r.selector.isLt; omega)
  rw [hfield, ofSelector_selector]

theorem decodeWord_pokeImm {op : Byte} (b1 b2 : Byte) (h : op.toNat / 8 = 6) :
    decodeWord op b1 b2 = .pokeImm (Reg.ofSelector (selectorField op)) (wordOfBytes b1 b2) := by
  simp only [decodeWord, familyCode_toNat, h]

theorem decodeWord_peekImm {op : Byte} (b1 b2 : Byte) (h : op.toNat / 8 = 7) :
    decodeWord op b1 b2 = .peekImm (wordOfBytes b1 b2) := by
  simp only [decodeWord, familyCode_toNat, h]

end Sys2Proof

namespace Sys2Proof.Machine

/-- A store inside memory: the byte reads back, every other address reads as before, nothing but memory changes. -/
theorem storeByte_inside {ea : Addr} {s : State} (v : Byte) (h : ea.toNat < s.params.memSize) :
    ∃ t, storeByte ea v s = .next t ∧ t = { s with mem := t.mem } ∧ t.memRead ea.toNat = .ok v ∧
      ∀ k, k ≠ ea.toNat → t.memRead k = s.memRead k := by
  have hw := memWrite_inside (v := v) h
  exact ⟨_, by simp only [storeByte, hw], memWrite_frame hw, memRead_memWrite_same hw,
    fun _ hk => memRead_memWrite_other hw hk⟩

theorem storeByte_outside {ea : Addr} {s : State} (v : Byte) (h : s.params.memSize ≤ ea.toNat) :
    storeByte ea v s = .next (raise .memoryFault s) := by
  simp only [storeByte, memWrite_outside h]

/-- An address of memory with no entry reads 0 (10_state.md rules R25, R29). -/
theorem memRead_of_absent {s : State} {n : Nat} (hin : n < s.params.memSize) (h : ∀ c ∈ s.mem, c.1 ≠ n) :
    s.memRead n = .ok 0#8 := by
  rw [memRead_inside hin, Memory.read_of_absent h, Memory.background]

end Sys2Proof.Machine
end

section
/-! Obligation O34: POKE and PEEK with a literal address, from their bytes in memory to the next state. -/

namespace Sys2Proof.Machine

theorem step_pokeImm {s : State} {op hi lo : Byte} (hrun : s.run = .running)
    (hcode : codeAt s s.pc [op, hi, lo] = true) (hpoke : op.toNat / 8 = 6) :
    step s = storeByte (wordOfBytes hi lo) ((s.advance 3).getReg (Reg.ofSelector (selectorField op))) (s.advance 3) :=
  step_of_codeAt hrun hcode (instrLength_of_i16 (by simp [hpoke])) (decodeWord_pokeImm hi lo hpoke)

theorem step_peekImm {s : State} {op hi lo : Byte} (hrun : s.run = .running)
    (hcode : codeAt s s.pc [op, hi, lo] = true) (hpeek : op.toNat / 8 = 7) :
    step s = loadA (wordOfBytes hi lo) (s.advance 3) :=
  step_of_codeAt hrun hcode (instrLength_of_i16 (by simp [hpeek])) (decodeWord_peekImm hi lo hpeek)

/-- Settles O34: with all three bytes there the step is the store or the load at the literal address with `pc` past
them; with fewer, the fetch faults past those there are. -/
theorem immediatePokeAndPeekRunFromTheirBytes : Obligations.ImmediatePokeAndPeekRunFromTheirBytes := by
  intro s op hi lo hrun ea
  have hea : (wordOfBytes hi lo).toNat = ea := wordOfBytes_toNat hi lo
  refine ⟨fun hcode => ?_, fun hfam => ?_⟩
  · have hload : op.toNat / 8 = 7 → ∀ v, s.memRead ea = .ok v → step s = .next { s with pc := s.pc + 3, a := v } :=
      fun hpeek v hread => (step_peekImm hrun hcode hpeek).trans
        (loadA_of_memRead (s := s.advance 3) (by rw [hea]; exact hread))
    refine ⟨fun r hop hin => ?_, hload, fun hpeek hin habs => hload hpeek 0#8 (memRead_of_absent hin habs),
      fun hfam hout => ?_⟩
    · have hpoke : op.toNat / 8 = 6 := by have := r.selector.isLt; omega
      rw [step_pokeImm hrun hcode hpoke, ofSelector_of_toNat (fam := 6) hop, ← hea]
      exact storeByte_inside (s := s.advance 3) _ (by rw [hea]; exact hin)
    · have hout' : (s.advance 3).params.memSize ≤ (wordOfBytes hi lo).toNat := by rw [hea]; exact hout
      obtain hpoke | hpeek := hfam
      · exact (step_pokeImm hrun hcode hpoke).trans (storeByte_outside _ hout')
      · exact (step_peekImm hrun hcode hpeek).trans (loadA_outside hout')
  · have hlen : instrLength op = 3 := instrLength_of_i16 (by obtain h | h := hfam <;> simp [h])
    exact ⟨fun hcode hout => step_of_codeAt_short hrun hcode (by simp [hlen]) hout,
      fun hcode hout => step_of_codeAt_short hrun hcode (by simp [hlen]) hout⟩

end Sys2Proof.Machine
end

section
/-! The opcode byte of SYSCALL (30_encoding.md rules R56, R57, R62), in both directions: which bytes decode to it, and
which byte stood at `pc` when the fetch got it. -/

namespace Sys2Proof

theorem instrLength_of_syscall {op : Byte} (h : op.toNat / 8 = 8) : instrLength op = 1 := by
  simp [instrLength, formatOf, familyCode_toNat, h, Format.length]

/-- Each pattern of the family-code map names an instruction of its own, and so does the last, where the code is none
of those before it. -/
theorem decodeWord_eq_syscall_iff {op b1 b2 : Byte} : decodeWord op b1 b2 = .syscall ↔ op.toNat / 8 = 8 := by
  rw [← familyCode_toNat]
  unfold decodeWord
  split
  case h_32 => exact iff_of_false Instr.noConfusion ‹_›
  all_goals simp [*]

end Sys2Proof

namespace Sys2Proof.Machine

/-- The instruction a fetch gets was decoded from the byte at `pc`. -/
theorem fetchInstr_got_opcode {s t : State} {i : Instr} (h : fetchInstr s = .got i t) :
    ∃ op b1 b2, codeAt s s.pc [op] = true ∧ decodeWord op b1 b2 = i := by
  obtain ⟨-, hf⟩ | ⟨hin, vs, -, hf⟩ | ⟨-, k, -, -, -, hf⟩ := fetchInstr_cases s _ rfl <;> rw [h] at hf
  · cases hf
  · obtain ⟨rfl, -⟩ := Fetch.got.inj hf
    exact ⟨_, _, _, codeAt_cons.mpr ⟨hin, rfl, codeAt_nil ..⟩, rfl⟩
  · cases hf

end Sys2Proof.Machine
end

section
/-! `UnknownSyscall` as the effect of an instruction (43_syscall.md rule R97, 60_exceptions.md rule R132), and obligation
O40 assembled from it: from the byte in memory to the fault, and from the fault back to the byte. -/

namespace Sys2Proof.Machine

theorem exec_syscall_unknown {s : State} (h : 3 ≤ s.a.toNat) : exec .syscall s = .next (raise .unknownSyscall s) := by
  have hne : s.a ≠ 0#8 ∧ s.a ≠ 1#8 ∧ s.a ≠ 2#8 := by bv_omega
  simp only [exec, execSyscall, hne, if_false]

/-- Exit and the two print syscalls end otherwise, so the number was none of theirs. -/
theorem execSyscall_unknownSyscall {s t : State} (hrun : s.run = .running) (h : execSyscall s = .next t)
    (ht : t.run = .halted (.fault .unknownSyscall)) : 3 ≤ s.a.toNat := by
  obtain ⟨-, rfl⟩ | ⟨-, rfl⟩ | ⟨-, rfl⟩ | ⟨h0, h1, h2, -⟩ := execSyscall_next h
  · simp at ht
  · obtain ⟨bs, e⟩ | e := printString_cases s <;> simp [e, hrun] at ht
  · obtain ⟨-, e⟩ | ⟨-, e⟩ := printNumber_cases s <;> simp [e, hrun] at ht
  · bv_omega

/-- Every other instruction keeps the run state or halts with a cause of its own. -/
theorem exec_unknownSyscall {i : Instr} {s t : State} (hrun : s.run = .running) (h : exec i s = .next t)
    (ht : t.run = .halted (.fault .unknownSyscall)) : i = .syscall ∧ 3 ≤ s.a.toNat := by
  cases i with
  | syscall => exact ⟨rfl, execSyscall_unknownSyscall hrun h ht⟩
  | invalid => cases h; simp at ht
  | bneImm | beqImm | jmpImm | bneReg | beqReg | jmpReg => cases h; simp [hrun] at ht
  | movImm | movReg | notImm | notReg | cmpImm | cmpReg => cases h; simp [hrun] at ht
  | pokeImm | pokeReg => obtain ⟨-, rfl⟩ | ⟨-, rfl⟩ := storeByte_next h <;> simp [hrun] at ht
  | peekImm | peekReg => obtain ⟨-, rfl⟩ | ⟨-, rfl⟩ := loadA_next h <;> simp [hrun] at ht
  | divImm | divReg => obtain ⟨-, rfl⟩ | ⟨-, rfl⟩ := divide_next h <;> simp [hrun] at ht
  | addImm | subImm | mulImm | andImm | orImm | xorImm => cases h; simp [hrun] at ht
  | addReg | subReg | mulReg | andReg | orReg | xorReg => cases h; simp [hrun] at ht

/-- Settles O40: forward, the one byte is fetched and its effect is the fault; back, a fault of the fetch is
`MemoryFault`, so an instruction was fetched, it is SYSCALL, and the byte at `pc` decodes to it. -/
theorem unknownSyscallIsRaisedBySyscallNumbersFromThree :
    Obligations.UnknownSyscallIsRaisedBySyscallNumbersFromThree := by
  intro s hrun
  refine ⟨fun op hcode hop ha => ?_, fun t hstep ht => ?_⟩
  · rw [step_of_codeAt hrun hcode (instrLength_of_syscall hop) (decodeWord_eq_syscall_iff.mpr hop)]
    exact exec_syscall_unknown (s := s.advance 1) ha
  · obtain ⟨k, -, -, rfl⟩ | ⟨i, k, -, -, hfetch, hexec⟩ := step_next hstep
    · simp at ht
    · obtain ⟨rfl, ha⟩ := exec_unknownSyscall (s := s.advance k) hrun hexec ht
      obtain ⟨op, b1, b2, hcode, hdec⟩ := fetchInstr_got_opcode hfetch
      exact ⟨ha, op, hcode, decodeWord_eq_syscall_iff.mp hdec⟩

end Sys2Proof.Machine
end

section
/-! The opcode byte of format I8 and of the four arithmetic families with a literal (30_encoding.md rules R54, R56, R57),
and the ALU's results as numbers (44_arithmetic.md rules R103, R112). -/

namespace Sys2Proof

theorem instrLength_of_i8 {op : Byte} (h : op.toNat / 8 ∈ [4, 5, 16, 17, 18, 19, 20, 21, 22, 23]) :
    instrLength op = 2 := by
  simp only [List.mem_cons, List.not_mem_nil, or_false] at h
  obtain h | h | h | h | h | h | h | h | h | h := h <;>
    simp [instrLength, formatOf, familyCode_toNat, h, Format.length]

/-- A family code in bits 7:3 and a selector number below it: the high five bits are the code. -/
theorem family_of_toNat {op : Byte} {r : Reg} {fam : Nat} (h : op.toNat = fam * 8 + r.selector.toNat) :
    op.toNat / 8 = fam := by
  have := r.selector.isLt
  omega

theorem decodeWord_addImm {op : Byte} {r : Reg} (b1 b2 : Byte) (h : op.toNat = 16 * 8 + r.selector.toNat) :
    decodeWord op b1 b2 = .addImm r b1 := by
  simp only [decodeWord, familyCode_toNat, family_of_toNat h, ofSelector_of_toNat h]

theorem decodeWord_subImm {op : Byte} {r : Reg} (b1 b2 : Byte) (h : op.toNat = 17 * 8 + r.selector.toNat) :
    decodeWord op b1 b2 = .subImm r b1 := by
  simp only [decodeWord, familyCode_toNat, family_of_toNat h, ofSelector_of_toNat h]

theorem decodeWord_mulImm {op : Byte} {r : Reg} (b1 b2 : Byte) (h : op.toNat = 18 * 8 + r.selector.toNat) :
    decodeWord op b1 b2 = .mulImm r b1 := by
  simp only [decodeWord, familyCode_toNat, family_of_toNat h, ofSelector_of_toNat h]

theorem decodeWord_divImm {op : Byte} {r : Reg} (b1 b2 : Byte) (h : op.toNat = 19 * 8 + r.selector.toNat) :
    decodeWord op b1 b2 = .divImm r b1 := by
  simp only [decodeWord, familyCode_toNat, family_of_toNat h, ofSelector_of_toNat h]

end Sys2Proof

namespace Sys2Proof.Machine

theorem aluAdd_eq_ofNat (v w : Byte) : aluAdd v w = BitVec.ofNat 8 ((v.toNat + w.toNat) % 256) :=
  BitVec.eq_of_toNat_eq (by simp [aluAdd])

/-- The borrow is taken from 256, so the difference of the numbers is never cut off at 0. -/
theorem aluSub_eq_ofNat (v w : Byte) : aluSub v w = BitVec.ofNat 8 ((v.toNat + 256 - w.toNat) % 256) := by
  have := w.isLt
  apply BitVec.eq_of_toNat_eq
  simp only [aluSub, BitVec.toNat_sub, BitVec.toNat_ofNat]
  omega

theorem aluMul_eq_ofNat (v w : Byte) : aluMul v w = BitVec.ofNat 8 (v.toNat * w.toNat % 256) :=
  BitVec.eq_of_toNat_eq (by simp [aluMul])

/-- A quotient is no greater than its dividend, so it fits a byte. -/
theorem aluDiv_eq_ofNat (v w : Byte) : aluDiv v w = BitVec.ofNat 8 (v.toNat / w.toNat) := by
  rw [aluDiv, BitVec.udiv_eq, ← BitVec.toNat_udiv, BitVec.ofNat_toNat, BitVec.setWidth_eq]

theorem aluMod_eq_ofNat (v w : Byte) : aluMod v w = BitVec.ofNat 8 (v.toNat % w.toNat) := by
  rw [aluMod, BitVec.umod_eq, ← BitVec.toNat_umod, BitVec.ofNat_toNat, BitVec.setWidth_eq]

end Sys2Proof.Machine
end

section
/-! What ADD, SUB, MUL and DIV with a literal do once fetched (44_arithmetic.md rules R104 to R107, R112), as numbers. -/

namespace Sys2Proof.Machine

theorem exec_addImm (r : Reg) (imm : Byte) (s : State) :
    exec (.addImm r imm) s = .next { s with a := BitVec.ofNat 8 (((s.getReg r).toNat + imm.toNat) % 256) } := by
  simp only [exec, execAddImm, resultToA, literalOperand, aluAdd_eq_ofNat]

theorem exec_subImm (r : Reg) (imm : Byte) (s : State) :
    exec (.subImm r imm) s = .next { s with a := BitVec.ofNat 8 (((s.getReg r).toNat + 256 - imm.toNat) % 256) } := by
  simp only [exec, execSubImm, resultToA, literalOperand, aluSub_eq_ofNat]

theorem exec_mulImm (r : Reg) (imm : Byte) (s : State) :
    exec (.mulImm r imm) s = .next { s with a := BitVec.ofNat 8 ((s.getReg r).toNat * imm.toNat % 256) } := by
  simp only [exec, execMulImm, resultToA, literalOperand, aluMul_eq_ofNat]

/-- Both operands are read before `A` or `B` is written, so a divisor or dividend in either is the old value. -/
theorem divide_of_ne_zero {v w : Byte} (s : State) (h : w ≠ 0#8) :
    divide v w s =
      .next { s with a := BitVec.ofNat 8 (v.toNat / w.toNat), b := BitVec.ofNat 8 (v.toNat % w.toNat) } := by
  simp only [divide, if_neg h, aluDiv_eq_ofNat, aluMod_eq_ofNat]

theorem divide_zero (v : Byte) (s : State) : divide v 0#8 s = .next (raise .divideByZero s) :=
  if_pos rfl

end Sys2Proof.Machine
end

section
/-! Obligations O35 and O36: an arithmetic instruction with a literal, from its bytes in memory to the next state. -/

namespace Sys2Proof.Machine

/-- Both bytes of format I8 are there: the step is the instruction they decode to, with `pc` past them. -/
theorem step_of_literal {s : State} {op imm : Byte} {i : Instr} (hrun : s.run = .running)
    (hcode : codeAt s s.pc [op, imm] = true) (hi8 : op.toNat / 8 ∈ [4, 5, 16, 17, 18, 19, 20, 21, 22, 23])
    (hdec : decodeWord op imm 0#8 = i) : step s = exec i (s.advance 2) :=
  step_of_codeAt hrun hcode (instrLength_of_i8 hi8) hdec

/-- The literal of format I8 is not there: the fetch faults past the opcode byte. -/
theorem step_of_literal_missing {s : State} {op : Byte} (hrun : s.run = .running) (hcode : codeAt s s.pc [op] = true)
    (hi8 : op.toNat / 8 ∈ [4, 5, 16, 17, 18, 19, 20, 21, 22, 23]) (hout : s.params.memSize ≤ (s.pc + 1).toNat) :
    step s = .next (raise .memoryFault (s.advance 1)) :=
  step_of_codeAt_short hrun hcode (by simp [instrLength_of_i8 hi8]) hout

/-- Settles O35: with both bytes there the step is the operation with `pc` past them, its result as a number; without
the literal, the fetch faults. -/
theorem immediateAddSubMulRunFromTheirBytes : Obligations.ImmediateAddSubMulRunFromTheirBytes := by
  intro s r op imm hrun v n
  refine ⟨fun hcode => ⟨fun hadd => ?_, fun hsub => ?_, fun hmul => ?_⟩, fun hfam hcode hout => ?_⟩
  · rw [step_of_literal hrun hcode (by simp [family_of_toNat (fam := 16) hadd]) (decodeWord_addImm imm _ hadd)]
    exact exec_addImm r imm (s.advance 2)
  · rw [step_of_literal hrun hcode (by simp [family_of_toNat (fam := 17) hsub]) (decodeWord_subImm imm _ hsub)]
    exact exec_subImm r imm (s.advance 2)
  · rw [step_of_literal hrun hcode (by simp [family_of_toNat (fam := 18) hmul]) (decodeWord_mulImm imm _ hmul)]
    exact exec_mulImm r imm (s.advance 2)
  · exact step_of_literal_missing hrun hcode (by obtain h | h | h := hfam <;> simp [h]) hout

/-- Settles O36: with both bytes there the step is the division with `pc` past them, by the two cases of the divisor;
without the literal, the fetch faults. -/
theorem immediateDivRunsFromItsBytes : Obligations.ImmediateDivRunsFromItsBytes := by
  intro s r op imm hrun v
  refine ⟨fun hcode hdiv => ?_, fun hcode hfam hout => ?_⟩
  · have hstep : step s = divide ((s.advance 2).getReg r) imm (s.advance 2) :=
      step_of_literal hrun hcode (by simp [family_of_toNat (fam := 19) hdiv]) (decodeWord_divImm imm _ hdiv)
    rw [hstep]
    refine ⟨fun hne => divide_of_ne_zero (s.advance 2) hne, fun hzero => ?_⟩
    subst hzero
    exact divide_zero _ (s.advance 2)
  · exact step_of_literal_missing hrun hcode (by simp [hfam]) hout

end Sys2Proof.Machine
end

section
/-! The opcode byte of AND and OR with a literal (30_encoding.md rules R54, R56), and what they do once fetched, bit by
bit (45_logic.md rules R115, R116, R124). -/

namespace Sys2Proof

theorem decodeWord_andImm {op : Byte} {r : Reg} (b1 b2 : Byte) (h : op.toNat = 20 * 8 + r.selector.toNat) :
    decodeWord op b1 b2 = .andImm r b1 := by
  simp only [decodeWord, familyCode_toNat, family_of_toNat h, ofSelector_of_toNat h]

theorem decodeWord_orImm {op : Byte} {r : Reg} (b1 b2 : Byte) (h : op.toNat = 21 * 8 + r.selector.toNat) :
    decodeWord op b1 b2 = .orImm r b1 := by
  simp only [decodeWord, familyCode_toNat, family_of_toNat h, ofSelector_of_toNat h]

end Sys2Proof

namespace Sys2Proof.Machine

theorem aluAnd_getLsbD (v w : Byte) (k : Nat) : (aluAnd v w).getLsbD k = (v.getLsbD k && w.getLsbD k) :=
  BitVec.getLsbD_and

theorem aluOr_getLsbD (v w : Byte) (k : Nat) : (aluOr v w).getLsbD k = (v.getLsbD k || w.getLsbD k) :=
  BitVec.getLsbD_or

theorem exec_andImm (r : Reg) (imm : Byte) (s : State) :
    exec (.andImm r imm) s = .next { s with a := aluAnd (s.getReg r) imm } := rfl

theorem exec_orImm (r : Reg) (imm : Byte) (s : State) :
    exec (.orImm r imm) s = .next { s with a := aluOr (s.getReg r) imm } := rfl

end Sys2Proof.Machine
end

section
/-! Obligation O37: AND and OR with a literal, from their bytes in memory to the next state. -/

namespace Sys2Proof.Machine

/-- Settles O37: with both bytes there the step is the operation with `pc` past them, and the byte in `A` is the ALU's,
known bit by bit; without the literal, the fetch faults. -/
theorem immediateAndOrRunFromTheirBytes : Obligations.ImmediateAndOrRunFromTheirBytes := by
  intro s r op imm hrun v
  refine ⟨fun hcode => ⟨fun hand => ⟨aluAnd v imm, ?_, aluAnd_getLsbD v imm⟩,
    fun hor => ⟨aluOr v imm, ?_, aluOr_getLsbD v imm⟩⟩, fun hfam hcode hout => ?_⟩
  · rw [step_of_literal hrun hcode (by simp [family_of_toNat (fam := 20) hand]) (decodeWord_andImm imm _ hand)]
    exact exec_andImm r imm (s.advance 2)
  · rw [step_of_literal hrun hcode (by simp [family_of_toNat (fam := 21) hor]) (decodeWord_orImm imm _ hor)]
    exact exec_orImm r imm (s.advance 2)
  · exact step_of_literal_missing hrun hcode (by obtain h | h := hfam <;> simp [h]) hout

end Sys2Proof.Machine
end

section
/-! The opcode byte of the unassigned family code 0 (30_encoding.md rules R56, R57, R65), in both directions. -/

namespace Sys2Proof

theorem instrLength_of_invalid {op : Byte} (h : op.toNat < 8) : instrLength op = 1 := by
  simp [instrLength, formatOf, familyCode_toNat, Nat.div_eq_of_lt h, Format.length]

/-- The codes 1 to 31 have an instruction each, so the last pattern of the family-code map is left with code 0. -/
theorem decodeWord_eq_invalid_iff {op b1 b2 : Byte} : decodeWord op b1 b2 = .invalid ↔ op.toNat < 8 := by
  have hfam : op.toNat < 8 ↔ (familyCode op).toNat = 0 := by rw [familyCode_toNat]; omega
  rw [hfam]
  unfold decodeWord
  split
  case h_32 =>
    refine iff_of_true rfl ?_
    have hlt := (familyCode op).isLt
    simp only [imp_false] at *
    omega
  all_goals simp [*]

end Sys2Proof
end

section
/-! Which fault causes an instruction has of its own, once it has been fetched (60_exceptions.md rules R128 to R132), and
obligation O39 assembled from it: from the byte in memory to the fault, and from the fault back to the byte. -/

namespace Sys2Proof.Machine

/-- The causes each instruction can halt a running machine with. -/
inductive CauseOf : Instr → Cause → Prop where
  | invalid : CauseOf .invalid .invalidOpcode
  | divImm (rs : Reg) (imm : Byte) : CauseOf (.divImm rs imm) .divideByZero
  | divReg (rs rt : Reg) : CauseOf (.divReg rs rt) .divideByZero
  | syscallNumber : CauseOf .syscall .unknownSyscall
  | syscallRead : CauseOf .syscall .memoryFault
  | pokeImm (rs : Reg) (addr : Addr) : CauseOf (.pokeImm rs addr) .memoryFault
  | pokeReg (rs : Reg) : CauseOf (.pokeReg rs) .memoryFault
  | peekImm (addr : Addr) : CauseOf (.peekImm addr) .memoryFault
  | peekReg : CauseOf .peekReg .memoryFault

theorem cause_of_raise {c d : Cause} {s : State} (h : (raise d s).run = .halted (.fault c)) : d = c := by
  simpa using h

theorem execSyscall_causeOf {s t : State} {c : Cause} (hrun : s.run = .running) (h : execSyscall s = .next t)
    (ht : t.run = .halted (.fault c)) : CauseOf .syscall c := by
  obtain ⟨-, rfl⟩ | ⟨-, rfl⟩ | ⟨-, rfl⟩ | ⟨-, -, -, rfl⟩ := execSyscall_next h
  · simp at ht
  · obtain ⟨bs, e⟩ | e := printString_cases s <;> rw [e] at ht
    · simp [hrun] at ht
    · exact cause_of_raise ht ▸ .syscallRead
  · obtain ⟨-, e⟩ | ⟨-, e⟩ := printNumber_cases s <;> rw [e] at ht
    · simp [hrun] at ht
    · exact cause_of_raise ht ▸ .syscallRead
  · exact cause_of_raise ht ▸ .syscallNumber

theorem cause_of_storeByte {ea : Addr} {v : Byte} {s t : State} {c : Cause} (hrun : s.run = .running)
    (h : storeByte ea v s = .next t) (ht : t.run = .halted (.fault c)) : .memoryFault = c := by
  obtain ⟨-, rfl⟩ | ⟨-, rfl⟩ := storeByte_next h
  · simp [hrun] at ht
  · exact cause_of_raise ht

theorem cause_of_loadA {ea : Addr} {s t : State} {c : Cause} (hrun : s.run = .running) (h : loadA ea s = .next t)
    (ht : t.run = .halted (.fault c)) : .memoryFault = c := by
  obtain ⟨-, rfl⟩ | ⟨-, rfl⟩ := loadA_next h
  · simp [hrun] at ht
  · exact cause_of_raise ht

theorem cause_of_divide {v w : Byte} {s t : State} {c : Cause} (hrun : s.run = .running) (h : divide v w s = .next t)
    (ht : t.run = .halted (.fault c)) : .divideByZero = c := by
  obtain ⟨-, rfl⟩ | ⟨-, rfl⟩ := divide_next h
  · simp [hrun] at ht
  · exact cause_of_raise ht

/-- A fault after the fetch is one of the instruction's own; the instructions `CauseOf` leaves out keep the run state. -/
theorem exec_causeOf {i : Instr} {s t : State} {c : Cause} (hrun : s.run = .running) (h : exec i s = .next t)
    (ht : t.run = .halted (.fault c)) : CauseOf i c := by
  cases i with
  | invalid => cases h; exact cause_of_raise ht ▸ .invalid
  | syscall => exact execSyscall_causeOf hrun h ht
  | pokeImm => exact cause_of_storeByte hrun h ht ▸ .pokeImm ..
  | pokeReg => exact cause_of_storeByte hrun h ht ▸ .pokeReg _
  | peekImm => exact cause_of_loadA hrun h ht ▸ .peekImm _
  | peekReg => exact cause_of_loadA hrun h ht ▸ .peekReg
  | divImm => exact cause_of_divide hrun h ht ▸ .divImm ..
  | divReg => exact cause_of_divide hrun h ht ▸ .divReg ..
  | bneImm | beqImm | jmpImm | bneReg | beqReg | jmpReg => cases h; simp [hrun] at ht
  | movImm | movReg | notImm | notReg | cmpImm | cmpReg => cases h; simp [hrun] at ht
  | addImm | subImm | mulImm | andImm | orImm | xorImm => cases h; simp [hrun] at ht
  | addReg | subReg | mulReg | andReg | orReg | xorReg => cases h; simp [hrun] at ht

theorem eq_invalid_of_causeOf {i : Instr} (h : CauseOf i .invalidOpcode) : i = .invalid := by
  cases h
  rfl

/-- Settles O39: forward, the one byte is fetched and its effect is the fault; back, a fault of the fetch is
`MemoryFault`, so an instruction was fetched, code 0 alone has this cause, and the byte at `pc` decodes to it. -/
theorem invalidOpcodeIsRaisedByCodeZeroAlone : Obligations.InvalidOpcodeIsRaisedByCodeZeroAlone := by
  intro s hrun
  refine ⟨fun op hcode hop => ?_, fun t hstep ht => ?_⟩
  · exact step_of_codeAt hrun hcode (instrLength_of_invalid hop) (decodeWord_eq_invalid_iff.mpr hop)
  · obtain ⟨k, -, -, rfl⟩ | ⟨i, k, -, -, hfetch, hexec⟩ := step_next hstep
    · simp at ht
    · obtain rfl := eq_invalid_of_causeOf (exec_causeOf (s := s.advance k) hrun hexec ht)
      obtain ⟨op, b1, b2, hcode, hdec⟩ := fetchInstr_got_opcode hfetch
      exact ⟨op, hcode, decodeWord_eq_invalid_iff.mp hdec⟩

end Sys2Proof.Machine
end

section
/-! Which instruction an opcode byte begins and how long it is (30_encoding.md rules R56, R57, R63, R66), over all 32
family codes, and obligations O7 to O12. -/

namespace Sys2Proof

/-- An opcode byte and as many bytes as it asks for are taken off the front, whatever follows them. -/
theorem decode_append {op : Byte} (bs rest : List Byte) (h : instrLength op = bs.length + 1) :
    decode (op :: bs ++ rest) =
      .ok (decodeWord op ((bs ++ rest).getD 0 0#8) ((bs ++ rest).getD 1 0#8), rest) := by
  have hdrop : (bs ++ rest).drop (instrLength op - 1) = rest := List.drop_left' (by omega)
  rw [List.cons_append, decode_cons _ _ (by simp [h]), hdrop]

/-- By the format of each family code: the decoder takes the bytes of that format back to their fields, and the fields
name the operands. -/
theorem decode_encode (i : Instr) (rest : List Byte) : decode (encode i ++ rest) = .ok (i, rest) := by
  cases i with
  | bneImm | beqImm | jmpImm | pokeImm | peekImm =>
    exact (decode_append [_, _] rest (instrLength_opcodeByte ..)).trans (by simp [decodeWord])
  | movImm | cmpImm | addImm | subImm | mulImm | divImm | andImm | orImm | notImm | xorImm =>
    exact (decode_append [_] rest (instrLength_opcodeByte ..)).trans (by simp [decodeWord])
  | movReg | cmpReg | addReg | subReg | mulReg | divReg | andReg | orReg | notReg | xorReg =>
    exact (decode_append [_] rest (instrLength_opcodeByte ..)).trans (by simp [decodeWord])
  | invalid | syscall | bneReg | beqReg | jmpReg | pokeReg | peekReg =>
    exact (decode_append [] rest (instrLength_opcodeByte ..)).trans (by simp [decodeWord])

/-- Settles O7: `decode_encode`, format by format. -/
theorem decodeOfEncodeIsTheInstruction : Obligations.DecodeOfEncodeIsTheInstruction :=
  decode_encode

/-- The low three bits of a byte, as the byte they are written in. -/
theorem sourceByte_ofSelector (b : Byte) : sourceByte (Reg.ofSelector (selectorField b)) = b &&& 0x07#8 := by
  apply BitVec.eq_of_toNat_eq
  rw [sourceByte, selector_ofSelector, BitVec.toNat_and]
  have : (0x07#8).toNat = 2 ^ 3 - 1 := rfl
  rw [this, Nat.and_two_pow_sub_one_eq_mod, BitVec.toNat_append, selectorField_toNat]
  simp

theorem familyCode_eq_ofNat {op : Byte} {n : Nat} (h : (familyCode op).toNat = n) : familyCode op = BitVec.ofNat 5 n := by
  rw [← h, BitVec.ofNat_toNat, BitVec.setWidth_eq]

theorem opcodeByte_selectorField {op : Byte} {n : Nat} (h : (familyCode op).toNat = n) :
    opcodeByte (BitVec.ofNat 5 n) (selectorField op) = op := by
  rw [← familyCode_eq_ofNat h, opcodeByte_fields]

/-- Family code by family code, in groups of one format with the selector read or ignored. -/
theorem encode_decodeWord (op b1 b2 : Byte) : encode (decodeWord op b1 b2) = clearIgnored op b1 b2 := by
  unfold decodeWord
  split
  case h_1 h | h_2 h | h_3 h | h_7 h => simp [encode, encodeI16, clearIgnored, formatOf, familyCode_eq_ofNat h]
  case h_6 h =>
    simp [encode, encodeI16, clearIgnored, formatOf, familyCode_eq_ofNat h, opcodeByte_selectorField h]
  case h_4 h | h_5 h | h_16 h | h_17 h | h_18 h | h_19 h | h_20 h | h_21 h | h_22 h | h_23 h =>
    simp [encode, encodeI8, clearIgnored, formatOf, familyCode_eq_ofNat h, opcodeByte_selectorField h]
  case h_12 h | h_13 h | h_24 h | h_25 h | h_26 h | h_27 h | h_28 h | h_29 h | h_30 h | h_31 h =>
    simp [encode, encodeR8, clearIgnored, formatOf, familyCode_eq_ofNat h, opcodeByte_selectorField h,
      sourceByte_ofSelector]
  case h_14 h => simp [encode, encodeOne, clearIgnored, formatOf, familyCode_eq_ofNat h, opcodeByte_selectorField h]
  case h_8 h | h_9 h | h_10 h | h_11 h | h_15 h =>
    simp [encode, encodeOne, clearIgnored, formatOf, familyCode_eq_ofNat h]
  case h_32 =>
    have h : (familyCode op).toNat = 0 := by
      have := (familyCode op).isLt
      simp only [imp_false] at *
      omega
    simp [encode, encodeOne, clearIgnored, formatOf, familyCode_eq_ofNat h]

/-- Settles O8: `encode_decodeWord`, family code by family code. -/
theorem encodeOfDecodeIsTheWordWithIgnoredFieldsZero : Obligations.EncodeOfDecodeIsTheWordWithIgnoredFieldsZero :=
  encode_decodeWord

/-- Settles O9: the first half by the rows whose instruction has no selector, the second by the rows whose second byte
is read through `selectorField` alone. -/
theorem ignoredFieldsChangeNothing : Obligations.IgnoredFieldsChangeNothing := by
  intro op op' b1 b1' b2
  refine ⟨fun hop hmem => ?_, fun hfam hlow => ?_⟩
  · simp only [List.mem_cons, List.not_mem_nil, or_false] at hmem
    obtain h | h | h | h | h | h | h | h | h | h := hmem <;>
      simp only [decodeWord, familyCode_toNat, ← hop, h]
  · have hsrc : selectorField b1 = selectorField b1' :=
      BitVec.eq_of_toNat_eq (by rw [selectorField_toNat, selectorField_toNat, hlow])
    have hr8 : op.toNat / 8 = 12 ∨ op.toNat / 8 = 13 ∨ op.toNat / 8 = 24 ∨ op.toNat / 8 = 25 ∨ op.toNat / 8 = 26 ∨
        op.toNat / 8 = 27 ∨ op.toNat / 8 = 28 ∨ op.toNat / 8 = 29 ∨ op.toNat / 8 = 30 ∨ op.toNat / 8 = 31 := by
      have := op.isLt
      simp only [List.mem_cons, List.not_mem_nil, or_false] at hfam
      omega
    obtain h | h | h | h | h | h | h | h | h | h := hr8 <;> simp only [decodeWord, familyCode_toNat, h, hsrc]

/-- The lengths of rule R63, over the 32 family codes. -/
theorem formatOf_length (fam : BitVec 5) : (formatOf fam).length =
    if fam.toNat ∈ [1, 2, 3, 6, 7] then 3 else if fam.toNat ∈ [4, 5, 12, 13] ∨ 16 ≤ fam.toNat then 2 else 1 := by
  revert fam; decide

theorem decode_short {op : Byte} {rest : List Byte} (h : rest.length + 1 < instrLength op) :
    decode (op :: rest) = .error (.truncated (instrLength op - (rest.length + 1))) :=
  if_neg (by omega)

/-- Settles O10: the length in the statement is the one the format of the family code has. -/
theorem decoderTakesTheLengthOfTheFamily : Obligations.DecoderTakesTheLengthOfTheFamily := by
  refine ⟨rfl, fun op rest => ?_⟩
  intro len
  have hlen : instrLength op = len := by rw [instrLength, formatOf_length, familyCode_toNat]
  rw [← hlen]
  exact ⟨fun h => ⟨_, decode_cons op rest h⟩, decode_short⟩

theorem wf_iff_ne_invalid {i : Instr} : i.wf = true ↔ i ≠ .invalid := by
  cases i <;> simp [Instr.wf]

/-- Settles O11: an instruction is well-formed when it is not the unassigned row, and that row is where code 0 goes. -/
theorem onlyCodeZeroIsUnassigned : Obligations.OnlyCodeZeroIsUnassigned := by
  intro op b1 b2
  have hrow : decodeWord op b1 b2 = .invalid ↔ op.toNat < 8 := decodeWord_eq_invalid_iff
  exact ⟨hrow, by rw [wf_iff_ne_invalid, Ne, hrow, Nat.not_lt]⟩

/-- Settles O12: the decoder computes each of these words. -/
theorem wordsOfTheTableDecode : Obligations.WordsOfTheTableDecode :=
  ⟨rfl, rfl, rfl, rfl, rfl, rfl⟩

end Sys2Proof
end

section
/-! The step by the bytes at `pc`, whatever they are (30_encoding.md rules R67, R69; 60_exceptions.md rules R126, R135),
and obligations O13 to O16. -/

namespace Sys2Proof

theorem decode_eq_ok_nil {bs : List Byte} {i : Instr} (h : decode bs = .ok (i, [])) :
    ∃ op rest, bs = op :: rest ∧ instrLength op = rest.length + 1 ∧
      decodeWord op (rest.getD 0 0#8) (rest.getD 1 0#8) = i := by
  cases bs with
  | nil => simp [decode] at h
  | cons op rest =>
    obtain hlen | hlen := Nat.lt_or_ge (rest.length + 1) (instrLength op)
    · simp [decode_short hlen] at h
    · obtain ⟨hi, hrest⟩ := Prod.mk.inj (Except.ok.inj ((decode_cons op rest hlen).symm.trans h))
      have := List.drop_eq_nil_iff.mp hrest
      have := instrLength_pos op
      exact ⟨op, rest, rfl, by omega, hi⟩

theorem instrLength_of_r8 {op : Byte} (h : op.toNat / 8 ∈ [12, 13, 24, 25, 26, 27, 28, 29, 30, 31]) :
    instrLength op = 2 := by
  simp only [List.mem_cons, List.not_mem_nil, or_false] at h
  obtain h | h | h | h | h | h | h | h | h | h := h <;>
    simp [instrLength, formatOf, familyCode_toNat, h, Format.length]

end Sys2Proof

namespace Sys2Proof.Machine

/-- The bytes the decoder takes whole are an opcode byte and as many more as it asks for. -/
theorem step_of_decode {s : State} {bs : List Byte} {i : Instr} (hrun : s.run = .running)
    (hdec : decode bs = .ok (i, [])) (hcode : codeAt s s.pc bs = true) : step s = exec i (s.advance bs.length) := by
  obtain ⟨op, rest, rfl, hlen, hi⟩ := decode_eq_ok_nil hdec
  exact step_of_codeAt hrun hcode hlen hi

/-- Settles O13: `step_of_decode`. -/
theorem stepRunsTheDecodedInstruction : Obligations.StepRunsTheDecodedInstruction :=
  fun _ _ _ => step_of_decode

/-- Settles O14: with no byte at all the first fetch faults, with fewer than the opcode byte asks for a later one. -/
theorem stepHaltsOnAMissingByte : Obligations.StepHaltsOnAMissingByte := by
  intro s bs hrun hcode hshort hout
  cases bs with
  | nil =>
    rw [List.length_nil, BitVec.add_zero] at hout ⊢
    exact step_of_pc_outside hrun hout
  | cons op rest => exact step_of_codeAt_short hrun hcode (hshort op rfl) hout

theorem step_of_halted {s : State} {o : RunOutcome} (h : s.run = .halted o) : step s = .fault (.halted o) := by
  simp only [step, h, stepHalted]

/-- Settles O15: a step looks at the run state first. -/
theorem haltedMachineTakesNoStep : Obligations.HaltedMachineTakesNoStep :=
  fun _ _ => step_of_halted

theorem storeByte_total (ea : Addr) (v : Byte) (s : State) : ∃ t, storeByte ea v s = .next t := by
  unfold storeByte
  split <;> exact ⟨_, rfl⟩

theorem loadA_total (ea : Addr) (s : State) : ∃ t, loadA ea s = .next t := by
  unfold loadA
  split <;> exact ⟨_, rfl⟩

theorem divide_total (v w : Byte) (s : State) : ∃ t, divide v w s = .next t := by
  unfold divide
  split <;> exact ⟨_, rfl⟩

theorem execSyscall_total (s : State) : ∃ t, execSyscall s = .next t := by
  unfold execSyscall
  split
  · exact ⟨_, rfl⟩
  · split
    · exact ⟨_, rfl⟩
    · split <;> exact ⟨_, rfl⟩

/-- The instructions without a check answer by their definition, the others whatever the check says. -/
theorem exec_total (i : Instr) (s : State) : ∃ t, exec i s = .next t := by
  cases i with
  | pokeImm | pokeReg => exact storeByte_total ..
  | peekImm | peekReg => exact loadA_total ..
  | divImm | divReg => exact divide_total ..
  | syscall => exact execSyscall_total s
  | invalid => exact ⟨_, rfl⟩
  | bneImm | beqImm | jmpImm | bneReg | beqReg | jmpReg => exact ⟨_, rfl⟩
  | movImm | movReg | notImm | notReg | cmpImm | cmpReg => exact ⟨_, rfl⟩
  | addImm | subImm | mulImm | andImm | orImm | xorImm => exact ⟨_, rfl⟩
  | addReg | subReg | mulReg | andReg | orReg | xorReg => exact ⟨_, rfl⟩

theorem step_total {s : State} (hrun : s.run = .running) : ∃ t, step s = .next t := by
  cases hf : fetchInstr s with
  | got i t => rw [step_of_got hrun hf]; exact exec_total i t
  | raised c t => exact ⟨_, step_of_raised hrun hf⟩

/-- Settles O16: `exec_total` for the instructions, and a fetch gets one or halts. -/
theorem everyInstructionAndEveryRunningStepHasANextState :
    Obligations.EveryInstructionAndEveryRunningStepHasANextState :=
  ⟨exec_total, fun _ => step_total⟩

end Sys2Proof.Machine
end

section
/-! The step handler by handler (30_encoding.md rule R69) and the step that fetches the whole instruction first: they
part after the opcode byte and meet again, format by format. Obligation O17. -/

namespace Sys2Proof.Machine

/-- What `step` does after the opcode byte: the operand bytes, then the effect. -/
def afterOpcode (op : Byte) (s : State) : Host.Outcome State Fault Refusal :=
  match fetchBytes (instrLength op - 1) s with
  | .raised c s1 => .next (raise c s1)
  | .got bs s1 => exec (decodeWord op (bs.getD 0 0#8) (bs.getD 1 0#8)) s1

theorem step_of_opcode {s t : State} {op : Byte} (hrun : s.run = .running) (hop : fetch8 s = .got op t) :
    step s = afterOpcode op t := by
  simp only [step, hrun, fetchInstr, hop, afterOpcode]
  cases fetchBytes (instrLength op - 1) t <;> rfl

theorem afterOpcode_of_length_one {op : Byte} (s : State) (h : instrLength op = 1) :
    afterOpcode op s = exec (decodeWord op 0#8 0#8) s := by
  simp [afterOpcode, h, fetchBytes]

theorem afterOpcode_of_length_two {op : Byte} (s : State) (h : instrLength op = 2) :
    afterOpcode op s = withLiteral s fun imm => exec (decodeWord op imm 0#8) := by
  simp only [afterOpcode, h, fetchBytes, withLiteral]
  cases fetch8 s <;> rfl

theorem afterOpcode_of_length_three {op : Byte} (s : State) (h : instrLength op = 3) :
    afterOpcode op s = withAddress s fun addr => exec (decodeWord op (highByte addr) (lowByte addr)) := by
  simp only [afterOpcode, h, fetchBytes, withAddress, fetch16]
  cases fetch8 s with
  | raised c t => rfl
  | got hi t =>
    dsimp only
    cases fetch8 t with
    | raised c u => rfl
    | got lo u => simp

/-- The handler of each family code fetches the operand bytes that the length of the code makes `step` fetch. -/
theorem afterOpcode_eq_specDispatch (op : Byte) (s : State) : afterOpcode op s = specDispatch op s := by
  unfold specDispatch
  split
  case h_1 h | h_2 h | h_3 h | h_6 h | h_7 h =>
    rw [afterOpcode_of_length_three s (instrLength_of_i16 (by simp [← familyCode_toNat, h]))]
    simp only [decodeWord, h, wordOfBytes_high_low]
    rfl
  case h_4 h | h_5 h | h_16 h | h_17 h | h_18 h | h_19 h | h_20 h | h_21 h | h_22 h | h_23 h =>
    rw [afterOpcode_of_length_two s (instrLength_of_i8 (by simp [← familyCode_toNat, h]))]
    simp only [decodeWord, h]
    rfl
  case h_12 h | h_13 h | h_24 h | h_25 h | h_26 h | h_27 h | h_28 h | h_29 h | h_30 h | h_31 h =>
    rw [afterOpcode_of_length_two s (instrLength_of_r8 (by simp [← familyCode_toNat, h]))]
    simp only [decodeWord, h]
    rfl
  case h_9 h | h_10 h | h_11 h | h_14 h | h_15 h =>
    rw [afterOpcode_of_length_one s (instrLength_of_rp (by simp [← familyCode_toNat, h]))]
    simp only [decodeWord, h]
    rfl
  case h_8 h =>
    rw [familyCode_toNat] at h
    rw [afterOpcode_of_length_one s (instrLength_of_syscall h), decodeWord_eq_syscall_iff.mpr h]
    rfl
  case h_32 =>
    have h : op.toNat < 8 := by
      have hlt := (familyCode op).isLt
      simp only [imp_false] at *
      rw [familyCode_toNat] at *
      omega
    rw [afterOpcode_of_length_one s (instrLength_of_invalid h), decodeWord_eq_invalid_iff.mpr h]
    rfl

/-- Settles O17: halted, both answer alike; running, both fetch the opcode byte and then do the same. -/
theorem stepEqualsTheHandlerByHandlerStep : Obligations.StepEqualsTheHandlerByHandlerStep := by
  intro s
  unfold specStep
  split
  · next o hrun => exact step_of_halted hrun
  · next hrun =>
    cases hop : fetch8 s with
    | raised c t => exact step_of_raised hrun (by simp only [fetchInstr, hop])
    | got op t => exact (step_of_opcode hrun hop).trans (afterOpcode_eq_specDispatch op t)

end Sys2Proof.Machine
end

section
/-! The invariant of the machine (10_state.md rule R25, 60_exceptions.md rules R129, R133, 70_reset_and_hazards.md rule
R157): kept by every effect an instruction can have, hence by every step and along every run. Obligations O18, O19, O50
and O56. -/

namespace Sys2Proof.Machine

/-- A state that still runs has only its parameters and memory to answer for. -/
theorem inv_of_running {t : State} (hrun : t.run = .running) (hp : t.params.wf = true) (hc : Memory.wf t.mem)
    (hi : ∀ c ∈ t.mem, c.1 < t.params.memSize) : t.Inv where
  params := hp
  canonical := hc
  inside := hi
  noLoadError := by simp [hrun]
  noSelectorFault := by simp [hrun]
  exitCode := by simp [hrun]

/-- What the invariant of a running state says is about parameters and memory, so it goes over to any running state
that has them too. -/
theorem State.Inv.of_frame {s t : State} (h : s.Inv) (hp : t.params = s.params) (hm : t.mem = s.mem)
    (hrun : t.run = .running) : t.Inv :=
  inv_of_running hrun (hp ▸ h.params) (hm ▸ h.canonical) (hp ▸ hm ▸ h.inside)

theorem State.Inv.store {s : State} {n : Nat} {v : Byte} (h : s.Inv) (hrun : s.run = .running)
    (hn : n < s.params.memSize) : State.Inv { s with mem := Memory.write s.mem n v } :=
  inv_of_running hrun h.params (Memory.write_wf n v h.canonical) fun c hc => by
    obtain rfl | hc := Memory.mem_write hc
    · exact hn
    · exact h.inside c hc

theorem State.Inv.raise {s : State} {c : Cause} (h : s.Inv) (hl : c ≠ .loadError) (hs : c ≠ .invalidRegisterSelector) :
    (raise c s).Inv where
  params := h.params
  canonical := h.canonical
  inside := h.inside
  noLoadError := by simpa using hl
  noSelectorFault := by simpa using hs
  exitCode := by simp

theorem State.Inv.haltOk {s : State} (h : s.Inv) (ha : s.a = 0#8) : (haltOk s).Inv where
  params := h.params
  canonical := h.canonical
  inside := h.inside
  noLoadError := by simp
  noSelectorFault := by simp
  exitCode _ := ha

theorem Effect.inv {s t : State} (h : Effect s t) (hinv : s.Inv) (hrun : s.run = .running) : t.Inv := by
  cases h with
  | none => exact hinv
  | jump | writeA | writeAB | writeFlag | print => exact hinv.of_frame rfl rfl hrun
  | writeReg r v => exact hinv.of_frame (setReg_params s r v) (setReg_mem s r v) ((setReg_run s r v).trans hrun)
  | store n v hn => exact hinv.store hrun hn
  | raised c hc => obtain rfl | rfl | rfl | rfl := hc <;> exact hinv.raise Cause.noConfusion Cause.noConfusion
  | exit ha => exact hinv.haltOk ha

/-- The step halts in the fetch, or what it runs has one of the effects that keep the invariant. -/
theorem State.Inv.step {s t : State} (hinv : s.Inv) (hstep : Machine.step s = .next t) : t.Inv := by
  have hrun := step_next_running hstep
  have hadv (k : Nat) : (s.advance k).Inv := hinv.of_frame rfl rfl hrun
  obtain ⟨k, -, -, rfl⟩ | ⟨i, k, -, -, -, hexec⟩ := step_next hstep
  · exact (hadv k).raise Cause.noConfusion Cause.noConfusion
  · exact (exec_effect hexec).inv (hadv k) hrun

/-- Settles O18: `State.Inv.step`, by the effects an instruction can have. -/
theorem everyStepKeepsTheMachineInvariant : Obligations.EveryStepKeepsTheMachineInvariant :=
  fun _ _ => State.Inv.step

theorem initial_inv {p : Params} (h : p.wf = true) : (State.initial p).Inv :=
  inv_of_running rfl h Memory.wf_nil (by simp)

/-- Settles O19: a new machine runs, and its memory has no entry. -/
theorem resetAndCreationMeetTheMachineInvariant : Obligations.ResetAndCreationMeetTheMachineInvariant :=
  ⟨initial_inv rfl, fun _ => initial_inv⟩

theorem Effect.params {s t : State} (h : Effect s t) : t.params = s.params := by
  cases h with
  | writeReg r v => exact setReg_params s r v
  | _ => rfl

/-- The run state after an instruction of a running machine, and the causes it can hold. -/
theorem Effect.run {s t : State} (h : Effect s t) (hrun : s.run = .running) :
    t.run = .running ∨ t.run = .halted .ok ∨ ∃ c, t.run = .halted (.fault c) ∧
      (c = .memoryFault ∨ c = .invalidOpcode ∨ c = .divideByZero ∨ c = .unknownSyscall) := by
  cases h with
  | writeReg r v => exact .inl ((setReg_run s r v).trans hrun)
  | none | jump | writeA | writeAB | writeFlag | print | store => exact .inl hrun
  | raised c hc => exact .inr (.inr ⟨c, rfl, hc⟩)
  | exit => exact .inr (.inl rfl)

/-- Settles O50: the fetch raises `MemoryFault` alone, and no effect has either of the two causes. -/
theorem stepKeepsParametersAndNeverRaisesHostOrSelectorFaults :
    Obligations.StepKeepsParametersAndNeverRaisesHostOrSelectorFaults := by
  intro s t hstep
  have hrun := step_next_running hstep
  obtain ⟨k, -, -, rfl⟩ | ⟨i, k, -, -, -, hexec⟩ := step_next hstep
  · simp
  · have heff := exec_effect hexec
    refine ⟨heff.params, ?_⟩
    obtain h | h | ⟨c, h, rfl | rfl | rfl | rfl⟩ := heff.run hrun <;> simp [h]

theorem create_ok {p : Params} {s : State} (h : create p = .ok s) : p.wf = true ∧ s = State.initial p := by
  unfold create at h
  split at h
  · next hwf => exact ⟨hwf, (Except.ok.inj h).symm⟩
  · cases h

theorem load_ok {image : List Byte} {s t : State} (h : load image s = .ok t) :
    image.length ≤ s.params.memSize ∧ t = { s with mem := Memory.writeBytes s.mem 0 image } := by
  unfold load at h
  split at h
  · next hfit => exact ⟨of_decide_eq_true hfit, (Except.ok.inj h).symm⟩
  · cases h

theorem load_inv {image : List Byte} {s t : State} (hinv : s.Inv) (hrun : s.run = .running)
    (h : load image s = .ok t) : t.Inv := by
  obtain ⟨hfit, rfl⟩ := load_ok h
  refine inv_of_running hrun hinv.params (Memory.writeBytes_wf 0 image hinv.canonical) fun c hc => ?_
  obtain ⟨-, hlt⟩ | hc := Memory.mem_writeBytes hc
  · exact Nat.lt_of_lt_of_le hlt (by rwa [Nat.zero_add])
  · exact hinv.inside c hc

/-- A property that every step keeps holds of every state a machine passes through. -/
theorem Reaches.induct {P : State → Prop} {s u : State} (hreach : Reaches s u) (hs : P s)
    (hstep : ∀ t u, P t → Machine.step t = .next u → P u) : P u := by
  induction hreach with
  | start => exact hs
  | step _ taken ih => exact hstep _ _ ih taken

/-- Settles O56: creation and load meet the invariant, and every step keeps it. -/
theorem everyStateOfALoadedMachineMeetsTheInvariant : Obligations.EveryStateOfALoadedMachineMeetsTheInvariant := by
  intro p image s t u hcreate hload hreach
  obtain ⟨hwf, rfl⟩ := create_ok hcreate
  exact hreach.induct (load_inv (initial_inv hwf) rfl hload) fun _ _ => State.Inv.step

end Sys2Proof.Machine
end

section
/-! Registers through their selectors as a table: what a read returns after a write, and that a state is no more than its
registers, `pc`, memory, run state, console and parameters (10_state.md rules R14 to R16, R28). Obligations O1 and O2. -/

namespace Sys2Proof.Machine

/-- The cells of their own by the update itself, the views of `pc` and `sp` by the halves of a word. -/
theorem getReg_setReg (s : State) (q r : Reg) (v : Byte) :
    (s.setReg r v).getReg q = if q = r then v else s.getReg q := by
  cases r with
  | a | x | y | flg | b => cases q <;> rfl
  | pc | spa | spb => cases q <;> simp

theorem getReg_setReg_same (s : State) (r : Reg) (v : Byte) : (s.setReg r v).getReg r = v := by
  rw [getReg_setReg, if_pos rfl]

theorem getReg_setReg_other (s : State) {q r : Reg} (v : Byte) (h : q ≠ r) : (s.setReg r v).getReg q = s.getReg q := by
  rw [getReg_setReg, if_neg h]

theorem pc_setReg (s : State) (r : Reg) (v : Byte) :
    (s.setReg r v).pc = if r = .pc then wordOfBytes 0#8 v else s.pc := by
  cases r <;> rfl

theorem wordOfBytes_zero_toNat (v : Byte) : (wordOfBytes 0#8 v).toNat = v.toNat := by
  simp [wordOfBytes_toNat]

theorem writesOnly_setReg (s : State) (r : Reg) (v : Byte) : WritesOnly r v s (s.setReg r v) where
  value := getReg_setReg_same s r v
  others _ h := getReg_setReg_other s v h
  pcKept h := by rw [pc_setReg, if_neg h]
  pcWritten h := by rw [pc_setReg, if_pos h, wordOfBytes_zero_toNat]
  mem := setReg_mem s r v
  run := setReg_run s r v
  out := setReg_out s r v
  params := setReg_params s r v

/-- Settles O1: every register reads as the table of reads after a write says, and the write reaches no other field. -/
theorem registerWriteReadsBackAndReachesNothingElse : Obligations.RegisterWriteReadsBackAndReachesNothingElse :=
  writesOnly_setReg

/-- Settles O2: the table over the eight values of the field, the views by the halves of a word. -/
theorem selectorTableAndRegisterViews : Obligations.SelectorTableAndRegisterViews := by
  have htable : ∀ n : BitVec 3, some (Reg.ofSelector n) = [Reg.a, .x, .y, .spa, .pc, .flg, .b, .spb][n.toNat]? := by
    decide
  refine ⟨fun w => selectorField_toNat w ▸ htable (selectorField w), fun s => ?_⟩
  exact ⟨rfl, rfl, rfl, rfl, rfl, highByte_toNat s.sp, lowByte_toNat s.sp, lowByte_toNat s.pc⟩

end Sys2Proof.Machine
end

section
/-! Obligations O4 and O5: the register pair as an address, and the fetch of one byte as numbers. -/

namespace Sys2Proof.Machine

/-- Settles O4: the pair is the target of JMP and the address of PEEK. -/
theorem pairAddressIsXHighYLow : Obligations.PairAddressIsXHighYLow :=
  fun s => ⟨regAddr_toNat s, exec_jmpReg s, fun _ => exec_peekReg_of_memRead⟩

theorem advance_one_eq (s : State) :
    s.advance 1 = { s with pc := BitVec.ofNat 16 ((s.pc.toNat + 1) % 65536) } := by
  have hpc : s.pc + 1#16 = BitVec.ofNat 16 ((s.pc.toNat + 1) % 65536) := BitVec.eq_of_toNat_eq (by simp)
  rw [State.advance, hpc]

/-- Settles O5: outside and inside memory, the next `pc` as a number. -/
theorem fetchByteMovesPcOnlyOnSuccess : Obligations.FetchByteMovesPcOnlyOnSuccess := by
  refine fun s => ⟨fetch8_outside, fun v hread => ?_⟩
  obtain ⟨hin, hv⟩ := memRead_ok_iff.mp hread
  exact fetch8_got_iff.mpr ⟨hin, hv, (advance_one_eq s).symm⟩

end Sys2Proof.Machine
end

section
/-! The register forms over the immediate ones: with its second operand read, an instruction in register mode does what
the immediate mode does with that operand (30_encoding.md rule R64, decision D16). -/

namespace Sys2Proof.Machine

variable (s : State) (rd rs rt : Reg)

theorem exec_bneReg : exec .bneReg s = exec (.bneImm s.regAddr) s := rfl
theorem exec_movReg : exec (.movReg rd rs) s = exec (.movImm rd (s.getReg rs)) s := rfl
theorem exec_notReg : exec (.notReg rd rs) s = exec (.notImm rd (s.getReg rs)) s := rfl
theorem exec_cmpReg : exec (.cmpReg rs rt) s = exec (.cmpImm rs (s.getReg rt)) s := rfl
theorem exec_addReg : exec (.addReg rs rt) s = exec (.addImm rs (s.getReg rt)) s := rfl
theorem exec_subReg : exec (.subReg rs rt) s = exec (.subImm rs (s.getReg rt)) s := rfl
theorem exec_mulReg : exec (.mulReg rs rt) s = exec (.mulImm rs (s.getReg rt)) s := rfl
theorem exec_divReg : exec (.divReg rs rt) s = exec (.divImm rs (s.getReg rt)) s := rfl
theorem exec_andReg : exec (.andReg rs rt) s = exec (.andImm rs (s.getReg rt)) s := rfl
theorem exec_orReg : exec (.orReg rs rt) s = exec (.orImm rs (s.getReg rt)) s := rfl
theorem exec_xorReg : exec (.xorReg rs rt) s = exec (.xorImm rs (s.getReg rt)) s := rfl
theorem exec_pokeReg : exec (.pokeReg rs) s = exec (.pokeImm rs s.regAddr) s := rfl
theorem exec_peekReg : exec .peekReg s = exec (.peekImm s.regAddr) s := rfl

end Sys2Proof.Machine
end

section
/-! The result of the branches, MOV, NOT and CMP (40_branch.md rules R75 to R81, 41_move_compare.md rules R83 to R88,
45_logic.md rules R117, R121). Obligations O20 to O22. -/

namespace Sys2Proof.Machine

/-- Settles O20: the condition is the parity of `FLG`, and BNE through the pair is BNE to the address it names. -/
theorem branchesReplaceOrKeepPc : Obligations.BranchesReplaceOrKeepPc :=
  fun s addr => ⟨exec_bneImm addr s, exec_beqImm addr s, exec_jmpImm addr s,
    (exec_bneReg s).trans (exec_bneImm s.regAddr s), exec_beqReg s, exec_jmpReg s⟩

theorem aluNot_eq_ofNat (v : Byte) : aluNot v = BitVec.ofNat 8 (255 - v.toNat) := by
  have hnot : aluNot v = ~~~v := BitVec.xor_allOnes
  apply BitVec.eq_of_toNat_eq
  rw [hnot, BitVec.toNat_not, BitVec.toNat_ofNat]
  omega

theorem exec_movImm (rd : Reg) (imm : Byte) (s : State) : exec (.movImm rd imm) s = .next (s.setReg rd imm) := rfl

theorem exec_notImm (rd : Reg) (imm : Byte) (s : State) :
    exec (.notImm rd imm) s = .next (s.setReg rd (BitVec.ofNat 8 (255 - imm.toNat))) :=
  aluNot_eq_ofNat imm ▸ rfl

/-- Settles O21: MOV and NOT are a write through the selector. -/
theorem movAndNotWriteOnlyTheirRegister : Obligations.MovAndNotWriteOnlyTheirRegister := by
  intro s rd rs imm
  exact ⟨⟨_, exec_movImm rd imm s, writesOnly_setReg ..⟩,
    ⟨_, (exec_movReg s rd rs).trans (exec_movImm rd _ s), writesOnly_setReg ..⟩,
    ⟨_, exec_notImm rd imm s, writesOnly_setReg ..⟩,
    ⟨_, (exec_notReg s rd rs).trans (exec_notImm rd _ s), writesOnly_setReg ..⟩⟩

theorem exec_cmpImm (rs : Reg) (imm : Byte) (s : State) :
    exec (.cmpImm rs imm) s = .next (s.setCompareFlag (decide (s.getReg rs = imm))) := rfl

/-- Bit 0 is the comparison, the other bits stay: `0x01` and `0xFE` are a one and its complement. -/
theorem setCompareFlag_getLsbD (s : State) (e : Bool) (k : Nat) :
    (s.setCompareFlag e).flg.getLsbD k = if k = 0 then e else s.flg.getLsbD k := by
  have hset : ∀ j < 8, (0x01#8 : Byte).getLsbD j = decide (j = 0) := by decide
  have hclear : ∀ j < 8, (0xFE#8 : Byte).getLsbD j = !decide (j = 0) := by decide
  obtain hk | hk := Nat.lt_or_ge k 8
  · cases e
    · by_cases h0 : k = 0 <;> simp [-BitVec.getLsbD_eq_getElem, hclear k hk, h0]
    · by_cases h0 : k = 0 <;> simp [-BitVec.getLsbD_eq_getElem, hset k hk, h0]
  · have h0 : k ≠ 0 := by omega
    simp only [BitVec.getLsbD_of_ge _ k hk, if_neg h0]

theorem exec_cmpImm_flag (rs : Reg) (imm : Byte) (s : State) :
    ∃ f : Byte, exec (.cmpImm rs imm) s = .next { s with flg := f } ∧
      f.getLsbD 0 = decide (s.getReg rs = imm) ∧ ∀ k, k ≠ 0 → f.getLsbD k = s.flg.getLsbD k :=
  ⟨_, exec_cmpImm rs imm s, setCompareFlag_getLsbD s _ 0, fun k hk => (setCompareFlag_getLsbD s _ k).trans (if_neg hk)⟩

/-- Settles O22: the flag bit by bit; register mode compares with the register's value. -/
theorem cmpSetsOnlyTheCompareFlag : Obligations.CmpSetsOnlyTheCompareFlag :=
  fun s rs rt imm => ⟨exec_cmpImm_flag rs imm s, exec_cmpReg s rs rt ▸ exec_cmpImm_flag rs (s.getReg rt) s⟩

end Sys2Proof.Machine
end

section
/-! The result of the arithmetic and logic instructions as numbers and bit by bit (44_arithmetic.md rules R103, R112,
45_logic.md rule R124). Obligations O23 to O25. -/

namespace Sys2Proof.Machine

/-- The difference modulo 256 with the borrow as a case of its own. -/
theorem sub_mod_eq_ite (v w : Byte) :
    (v.toNat + 256 - w.toNat) % 256 = if w.toNat ≤ v.toNat then v.toNat - w.toNat else v.toNat + 256 - w.toNat := by
  have := v.isLt
  have := w.isLt
  split <;> omega

theorem exec_subImm_borrow (r : Reg) (imm : Byte) (s : State) :
    exec (.subImm r imm) s = .next { s with a := BitVec.ofNat 8 (if imm.toNat ≤ (s.getReg r).toNat
      then (s.getReg r).toNat - imm.toNat else (s.getReg r).toNat + 256 - imm.toNat) } := by
  rw [exec_subImm, sub_mod_eq_ite]

/-- Settles O23: the ALU's results as numbers; register mode uses the register's value. -/
theorem addSubMulPutTheResultModulo256InA : Obligations.AddSubMulPutTheResultModulo256InA := by
  intro s rs rt imm v w n
  exact ⟨exec_addImm rs imm s, (exec_addReg s rs rt).trans (exec_addImm rs _ s),
    exec_subImm_borrow rs imm s, (exec_subReg s rs rt).trans (exec_subImm_borrow rs _ s),
    exec_mulImm rs imm s, (exec_mulReg s rs rt).trans (exec_mulImm rs _ s)⟩

/-- Quotient and remainder satisfy the division law, which determines them. -/
theorem exec_divImm_of_ne_zero (rs : Reg) {imm : Byte} (s : State) (h : imm ≠ 0#8) :
    ∃ q r : Byte, exec (.divImm rs imm) s = .next { s with a := q, b := r } ∧
      (s.getReg rs).toNat = q.toNat * imm.toNat + r.toNat ∧ r.toNat < imm.toNat := by
  have hpos : 0 < imm.toNat := by bv_omega
  refine ⟨aluDiv (s.getReg rs) imm, aluMod (s.getReg rs) imm, if_neg h, ?_, ?_⟩
  · exact (Nat.div_add_mod' ..).symm
  · exact Nat.mod_lt _ hpos

theorem exec_divImm_zero (rs : Reg) (s : State) : exec (.divImm rs 0#8) s = .next (raise .divideByZero s) :=
  divide_zero (s.getReg rs) s

/-- Settles O24: the division law of `exec_divImm_of_ne_zero`; register mode divides by the register's value. -/
theorem divPutsQuotientInAAndRemainderInB : Obligations.DivPutsQuotientInAAndRemainderInB := by
  intro s rs rt imm
  rw [exec_divReg]
  refine ⟨exec_divImm_of_ne_zero rs s, exec_divImm_of_ne_zero rs s, exec_divImm_zero rs s, fun hzero => ?_⟩
  rw [hzero]
  exact exec_divImm_zero rs s

theorem aluXor_getLsbD (v w : Byte) (k : Nat) : (aluXor v w).getLsbD k = (v.getLsbD k ^^ w.getLsbD k) :=
  BitVec.getLsbD_xor

theorem exec_xorImm (r : Reg) (imm : Byte) (s : State) :
    exec (.xorImm r imm) s = .next { s with a := aluXor (s.getReg r) imm } := rfl

/-- Settles O25: the byte in `A` is the ALU's, known bit by bit. -/
theorem andOrXorPutTheBitwiseResultInA : Obligations.AndOrXorPutTheBitwiseResultInA := by
  intro s rs rt imm v w
  exact ⟨⟨_, exec_andImm rs imm s, aluAnd_getLsbD v imm⟩, ⟨_, exec_orImm rs imm s, aluOr_getLsbD v imm⟩,
    ⟨_, exec_xorImm rs imm s, aluXor_getLsbD v imm⟩,
    ⟨_, (exec_andReg s rs rt).trans (exec_andImm rs w s), aluAnd_getLsbD v w⟩,
    ⟨_, (exec_orReg s rs rt).trans (exec_orImm rs w s), aluOr_getLsbD v w⟩,
    ⟨_, (exec_xorReg s rs rt).trans (exec_xorImm rs w s), aluXor_getLsbD v w⟩⟩

end Sys2Proof.Machine
end

section
/-! The result of POKE, PEEK, SYSCALL and the unassigned code (42_memory_access.md rules R90 to R94, 43_syscall.md rules
R95 to R101, 30_encoding.md rule R65). Obligations O26 to O32. -/

namespace Sys2Proof.Machine

theorem exec_pokeImm (rs : Reg) (addr : Addr) (s : State) :
    exec (.pokeImm rs addr) s = storeByte addr (s.getReg rs) s := rfl

theorem exec_peekImm (addr : Addr) (s : State) : exec (.peekImm addr) s = loadA addr s := rfl

/-- Settles O26: a store at the literal or at the pair, inside memory or outside. -/
theorem pokeStoresOneByteAtItsAddress : Obligations.PokeStoresOneByteAtItsAddress := by
  intro s rs addr
  rw [exec_pokeReg, exec_pokeImm, exec_pokeImm]
  exact ⟨storeByte_inside _, storeByte_inside _, storeByte_outside _, storeByte_outside _⟩

theorem loadA_inside {ea : Addr} {s : State} (h : ea.toNat < s.params.memSize) :
    ∃ v, s.memRead ea.toNat = .ok v ∧ loadA ea s = .next { s with a := v } :=
  have hread := memRead_inside h
  ⟨_, hread, loadA_of_memRead hread⟩

/-- Settles O27: a load from the literal or from the pair, inside memory or outside. -/
theorem peekLoadsOneByteIntoA : Obligations.PeekLoadsOneByteIntoA := by
  intro s addr
  rw [exec_peekReg, exec_peekImm, exec_peekImm]
  exact ⟨loadA_inside, loadA_inside, loadA_outside, loadA_outside⟩

theorem exec_syscall_exit {s : State} (h : s.a = 0#8) : exec .syscall s = .next (haltOk s) :=
  if_pos h

theorem exec_syscall_printString {s : State} (h : s.a = 1#8) : exec .syscall s = .next (printString s) := by
  simp [exec, execSyscall, h]

theorem exec_syscall_printNumber {s : State} (h : s.a = 2#8) : exec .syscall s = .next (printNumber s) := by
  simp [exec, execSyscall, h]

/-- Settles O28: the first and the last branch of the syscall numbers. -/
theorem syscallExitsOrRejectsTheNumber : Obligations.SyscallExitsOrRejectsTheNumber :=
  fun _ => ⟨exec_syscall_exit, exec_syscall_unknown⟩

/-- The scan of a string that ends in memory, under a bound it does not reach. -/
theorem scanString_of_nul {s : State} {bs : List Byte} {n addr : Nat} (hn : bs.length < n)
    (hbs : ∀ (k : Nat) (h : k < bs.length), s.memRead (addr + k) = .ok bs[k] ∧ bs[k] ≠ 0#8)
    (hnul : s.memRead (addr + bs.length) = .ok 0#8) : scanString s n addr = .ok bs := by
  induction bs generalizing n addr with
  | nil =>
    obtain ⟨m, rfl⟩ := Nat.exists_eq_add_of_lt hn
    simp only [List.length_nil, Nat.add_zero] at hnul
    simp [scanString, hnul]
  | cons c cs ih =>
    obtain ⟨m, rfl⟩ := Nat.exists_eq_add_of_lt hn
    obtain ⟨hread, hne⟩ := hbs 0 (Nat.zero_lt_succ _)
    have hrest : scanString s (cs.length + 1 + m) (addr + 1) = .ok cs := by
      refine ih (by omega) (fun k hk => ?_) ?_
      · rw [Nat.add_assoc, Nat.add_comm 1]
        exact hbs (k + 1) (Nat.succ_lt_succ hk)
      · rw [Nat.add_assoc, Nat.add_comm 1]
        exact hnul
    simp only [Nat.add_zero, List.getElem_cons_zero] at hread hne
    simp only [List.length_cons, scanString, hread, if_neg hne, hrest]

/-- With no NUL from the address up, the scan ends at the end of memory, whatever the bound. -/
theorem scanString_without_nul {s : State} {n addr : Nat} (h : ∀ k, addr ≤ k → s.memRead k ≠ .ok 0#8) :
    scanString s n addr = .error .memoryFault := by
  induction n generalizing addr with
  | zero => rfl
  | succ n ih =>
    have hrest := ih fun k hk => h k (Nat.le_of_succ_le hk)
    cases hread : s.memRead addr with
    | error c => simp only [scanString, hread, (memRead_error_iff.mp hread).2]
    | ok c =>
      have hne : c ≠ 0#8 := fun hc => h addr (Nat.le_refl _) (hc ▸ hread)
      simp only [scanString, hread, if_neg hne, hrest]

/-- Settles O29: the NUL lies in memory, so the string before it is shorter than the bound of the scan. -/
theorem printStringWritesTheBytesBeforeTheNul : Obligations.PrintStringWritesTheBytesBeforeTheNul := by
  intro s ha
  rw [exec_syscall_printString ha]
  refine ⟨fun bs hbs hnul => ?_, fun hno => ?_⟩
  · obtain ⟨hin, -⟩ := memRead_ok_iff.mp hnul
    have hscan : readString s (pairAddress s).toNat = .ok bs := scanString_of_nul (by omega) hbs hnul
    simp only [printString, hscan, consoleWrite]
  · have hscan : readString s (pairAddress s).toNat = .error .memoryFault := scanString_without_nul hno
    simp only [printString, hscan, raise]

/-- Settles O30: one read at the pair, inside memory or outside. -/
theorem printNumberWritesTheByteInDecimal : Obligations.PrintNumberWritesTheByteInDecimal := by
  intro s ha
  rw [exec_syscall_printNumber ha]
  refine ⟨fun v hread => ?_, fun hout => ?_⟩
  · simp only [printNumber, pairAddress, hread, consoleWrite]
  · simp only [printNumber, pairAddress, memRead_outside hout, raise]

theorem digitChar_mem_range {d : Nat} (h : d < 10) : 0x30 ≤ (digitChar d).toNat ∧ (digitChar d).toNat ≤ 0x39 := by
  rw [digitChar_toNat h]
  omega

theorem digitChar_value {d : Nat} (h : d < 10) : (digitChar d).toNat - 0x30 = d := by
  rw [digitChar_toNat h, Nat.add_sub_cancel_left]

/-- The numeral is one digit, two with the first not 0, or three with the first not 0, and its value is the byte. -/
theorem decimal_cases (v : Byte) :
    (v.toNat < 10 ∧ decimal v = [digitChar v.toNat]) ∨
    (10 ≤ v.toNat ∧ v.toNat < 100 ∧ ∃ t o, t ≠ 0 ∧ t < 10 ∧ o < 10 ∧ t * 10 + o = v.toNat ∧
      decimal v = [digitChar t, digitChar o]) ∨
    (100 ≤ v.toNat ∧ ∃ h t o, h ≠ 0 ∧ h < 10 ∧ t < 10 ∧ o < 10 ∧ (h * 10 + t) * 10 + o = v.toNat ∧
      decimal v = [digitChar h, digitChar t, digitChar o]) := by
  have hlt := v.isLt
  obtain h10 | h10 := Nat.lt_or_ge v.toNat 10
  · exact .inl ⟨h10, if_pos h10⟩
  obtain h100 | h100 := Nat.lt_or_ge v.toNat 100
  · have hdec : decimal v = [digitChar (v.toNat / 10), digitChar (v.toNat % 10)] := by
      simp only [decimal, if_neg (Nat.not_lt.mpr h10), if_pos h100]
    exact .inr (.inl ⟨h10, h100, _, _, by omega, by omega, by omega, by omega, hdec⟩)
  · have hdec : decimal v = [digitChar (v.toNat / 100), digitChar (v.toNat / 10 % 10), digitChar (v.toNat % 10)] := by
      simp only [decimal, if_neg (Nat.not_lt.mpr h10), if_neg (Nat.not_lt.mpr h100)]
    exact .inr (.inr ⟨h100, _, _, _, by omega, by omega, by omega, by omega, by omega, hdec⟩)

/-- Settles O31, by the number of digits. -/
theorem decimalIsTheShortestNumeral : Obligations.DecimalIsTheShortestNumeral := by
  intro v
  have hzero : v = 0#8 ↔ v.toNat = 0 := by rw [← BitVec.toNat_inj]; rfl
  obtain ⟨h10, hdec⟩ | ⟨h10, h100, t, o, hne, ht, ho, hval, hdec⟩ | ⟨h100, h, t, o, hne, hh, ht, ho, hval, hdec⟩ :=
    decimal_cases v <;> rw [hdec]
  · refine ⟨by simp, by simp, by simp [h10], ?_, ?_, ?_⟩
    · simp [digitChar_mem_range h10]
    · simp [digitChar_value h10]
    · simp [digitChar_eq_zero h10, hzero]
  · refine ⟨by simp, by simp, by simp [h100, Nat.not_lt.mpr h10], ?_, ?_, ?_⟩
    · simp [digitChar_mem_range ht, digitChar_mem_range ho]
    · simp [digitChar_value ht, digitChar_value ho, hval]
    · exact iff_of_false (by simp [digitChar_eq_zero ht, hne]) (mt hzero.mp (by omega))
  · have h10 : ¬ v.toNat < 10 := by omega
    refine ⟨by simp, by simp, by simp [h10, Nat.not_lt.mpr h100], ?_, ?_, ?_⟩
    · simp [digitChar_mem_range hh, digitChar_mem_range ht, digitChar_mem_range ho]
    · simp [digitChar_value hh, digitChar_value ht, digitChar_value ho, hval]
    · exact iff_of_false (by simp [digitChar_eq_zero hh, hne]) (mt hzero.mp (by omega))

/-- Settles O32: it is the effect of the row. -/
theorem invalidHaltsWithInvalidOpcode : Obligations.InvalidHaltsWithInvalidOpcode :=
  fun _ => rfl

end Sys2Proof.Machine
end

section
/-! A step by the instruction it runs: `pc` goes past the bytes that the encoder writes for it, then it has its effect
(30_encoding.md rules R63, R69). -/

namespace Sys2Proof

theorem clearIgnored_length (op b1 b2 : Byte) : (clearIgnored op b1 b2).length = instrLength op := by
  unfold clearIgnored instrLength
  dsimp only
  cases formatOf (familyCode op) <;> rfl

theorem encode_decodeWord_length (op b1 b2 : Byte) : (encode (decodeWord op b1 b2)).length = instrLength op := by
  rw [encode_decodeWord, clearIgnored_length]

end Sys2Proof

namespace Sys2Proof.Machine

/-- The fetch of an instruction moves `pc` past as many bytes as its encoding has. -/
theorem fetchInstr_got_eq {s t : State} {i : Instr} (h : fetchInstr s = .got i t) :
    t = s.advance (encode i).length := by
  obtain ⟨-, hf⟩ | ⟨-, vs, -, hf⟩ | ⟨-, k, -, -, -, hf⟩ := fetchInstr_cases s _ rfl <;> rw [h] at hf
  · cases hf
  · obtain ⟨rfl, rfl⟩ := Fetch.got.inj hf
    rw [encode_decodeWord_length]
  · cases hf

theorem currentInstr_of_got {s t : State} {i : Instr} (h : fetchInstr s = .got i t) : currentInstr s = some i := by
  simp only [currentInstr, h]

theorem currentInstr_of_raised {s t : State} {c : Cause} (h : fetchInstr s = .raised c t) : currentInstr s = none := by
  simp only [currentInstr, h]

/-- Everything a step can do, told by the instruction it runs. -/
theorem step_currentInstr {s t : State} (h : step s = .next t) :
    (currentInstr s = none ∧ ∃ k, k ≤ 2 ∧ t = raise .memoryFault (s.advance k)) ∨
    (∃ i, currentInstr s = some i ∧ exec i (s.advance (encode i).length) = .next t) := by
  obtain ⟨k, hk, hfetch, rfl⟩ | ⟨i, k, -, -, hfetch, hexec⟩ := step_next h
  · exact .inl ⟨currentInstr_of_raised hfetch, k, hk, rfl⟩
  · exact .inr ⟨i, currentInstr_of_got hfetch, fetchInstr_got_eq hfetch ▸ hexec⟩

theorem exec_of_step {s t : State} {i : Instr} (h : step s = .next t) (hi : currentInstr s = some i) :
    exec i (s.advance (encode i).length) = .next t := by
  obtain ⟨hnone, -⟩ | ⟨j, hj, hexec⟩ := step_currentInstr h
  · rw [hnone] at hi; cases hi
  · obtain rfl := Option.some.inj (hj.symm.trans hi)
    exact hexec

end Sys2Proof.Machine
end

section
/-! What an instruction changes, tied to its row of the table of reads and writes (10_state.md rule R24): a register it
may write, one byte where it stores, the run state with a cause of its own, the console. -/

namespace Sys2Proof.Machine

/-- The address a store goes to: the literal, or the register pair. -/
inductive StoresAt : Instr → State → Nat → Prop where
  | literal (r : Reg) (addr : Addr) (s : State) : StoresAt (.pokeImm r addr) s addr.toNat
  | pair (r : Reg) (s : State) : StoresAt (.pokeReg r) s s.regAddr.toNat

/-- `Change i s t`: instruction `i` may lead from `s` to `t`. -/
inductive Change (i : Instr) (s : State) : State → Prop where
  | none : Change i s s
  | jump (w : Addr) (h : i.mayWrite .pc = true) : Change i s { s with pc := w }
  | write (r : Reg) (v : Byte) (h : i.mayWrite r = true) : Change i s (s.setReg r v)
  | writeAB (v w : Byte) (ha : i.mayWrite .a = true) (hb : i.mayWrite .b = true) :
      Change i s ((s.setReg .a v).setReg .b w)
  | store (n : Nat) (v : Byte) (h : StoresAt i s n) : Change i s { s with mem := Memory.write s.mem n v }
  | fault (c : Cause) (h : CauseOf i c) : Change i s (raise c s)
  | exit (h : i = .syscall) (ha : s.a = 0#8) : Change i s (haltOk s)
  | print (bs : List Byte) (h : i = .syscall) (ha : s.a = 1#8 ∨ s.a = 2#8) : Change i s (consoleWrite bs s)

theorem Change.of_branchIf {i : Instr} (s : State) (taken : Bool) (w : Addr) (h : i.mayWrite .pc = true) :
    Change i s (branchIf taken w s) := by
  cases taken
  · exact .none
  · exact .jump w h

theorem Change.of_storeByte {i : Instr} {ea : Addr} {v : Byte} {s t : State} (h : storeByte ea v s = .next t)
    (hat : StoresAt i s ea.toNat) (hc : CauseOf i .memoryFault) : Change i s t := by
  obtain ⟨-, rfl⟩ | ⟨-, rfl⟩ := storeByte_next h
  · exact .store _ _ hat
  · exact .fault _ hc

theorem Change.of_loadA {i : Instr} {ea : Addr} {s t : State} (h : loadA ea s = .next t) (ha : i.mayWrite .a = true)
    (hc : CauseOf i .memoryFault) : Change i s t := by
  obtain ⟨-, rfl⟩ | ⟨-, rfl⟩ := loadA_next h
  · exact .write .a _ ha
  · exact .fault _ hc

theorem Change.of_divide {i : Instr} {v w : Byte} {s t : State} (h : divide v w s = .next t)
    (ha : i.mayWrite .a = true) (hb : i.mayWrite .b = true) (hc : CauseOf i .divideByZero) : Change i s t := by
  obtain ⟨-, rfl⟩ | ⟨-, rfl⟩ := divide_next h
  · exact .writeAB (aluDiv v w) (aluMod v w) ha hb
  · exact .fault _ hc

theorem Change.of_syscall {s t : State} (h : execSyscall s = .next t) : Change .syscall s t := by
  obtain ⟨ha, rfl⟩ | ⟨ha, rfl⟩ | ⟨ha, rfl⟩ | ⟨-, -, -, rfl⟩ := execSyscall_next h
  · exact .exit rfl ha
  · obtain ⟨bs, e⟩ | e := printString_cases s <;> rw [e]
    · exact .print bs rfl (.inl ha)
    · exact .fault _ .syscallRead
  · obtain ⟨-, e⟩ | ⟨-, e⟩ := printNumber_cases s <;> rw [e]
    · exact .print _ rfl (.inr ha)
    · exact .fault _ .syscallRead
  · exact .fault _ .syscallNumber

theorem exec_change {i : Instr} {s t : State} (h : exec i s = .next t) : Change i s t := by
  cases i with
  | invalid => cases h; exact .fault _ .invalid
  | bneImm | beqImm | jmpImm | bneReg | beqReg | jmpReg => cases h; exact .of_branchIf s _ _ rfl
  | movImm rd | movReg rd | notImm rd | notReg rd => cases h; exact .write rd _ (decide_eq_true rfl)
  | cmpImm | cmpReg => cases h; exact .write .flg _ rfl
  | pokeImm rs addr => exact .of_storeByte h (.literal rs addr s) (.pokeImm rs addr)
  | pokeReg rs => exact .of_storeByte h (.pair rs s) (.pokeReg rs)
  | peekImm addr => exact .of_loadA h rfl (.peekImm addr)
  | peekReg => exact .of_loadA h rfl .peekReg
  | syscall => exact .of_syscall h
  | divImm rs imm => exact .of_divide h rfl rfl (.divImm rs imm)
  | divReg rs rt => exact .of_divide h rfl rfl (.divReg rs rt)
  | addImm | subImm | mulImm | andImm | orImm | xorImm => cases h; exact .write .a _ rfl
  | addReg | subReg | mulReg | andReg | orReg | xorReg => cases h; exact .write .a _ rfl

end Sys2Proof.Machine
end

section
/-! Frames read off `Change`: registers, memory, console, run state and `pc`. Obligations O41 and O43 to O48. -/

namespace Sys2Proof.Machine

theorem getReg_of_cells {s t : State} {r : Reg} (hr : r ≠ .pc) (ha : t.a = s.a) (hb : t.b = s.b) (hx : t.x = s.x)
    (hy : t.y = s.y) (hflg : t.flg = s.flg) (hsp : t.sp = s.sp) : t.getReg r = s.getReg r := by
  cases r with
  | pc => exact absurd rfl hr
  | _ => simp only [State.getReg, ha, hb, hx, hy, hflg, hsp]

theorem Change.getReg {i : Instr} {s t : State} {r : Reg} (h : Change i s t) (hr : r ≠ .pc)
    (hw : i.mayWrite r = false) : t.getReg r = s.getReg r := by
  have hne {q : Reg} (hq : i.mayWrite q = true) : r ≠ q := by
    rintro rfl
    rw [hw] at hq
    cases hq
  cases h with
  | write q v hq => exact getReg_setReg_other s v (hne hq)
  | writeAB v w ha hb => rw [getReg_setReg_other _ _ (hne hb), getReg_setReg_other _ _ (hne ha)]
  | none | jump | store | fault | exit | print => exact getReg_of_cells hr rfl rfl rfl rfl rfl rfl

/-- Settles O41: the fetch moves `pc` alone, and no change of the instruction reaches a register outside its row. -/
theorem stepWritesOnlyTheRegistersOfItsRow : Obligations.StepWritesOnlyTheRegistersOfItsRow := by
  intro s t i r hstep hi hr hw
  exact ((exec_change (exec_of_step hstep hi)).getReg hr hw).trans (getReg_of_cells hr rfl rfl rfl rfl rfl rfl)

theorem Change.memRead {i : Instr} {s t : State} {k : Nat} (h : Change i s t) (hk : ∀ n, StoresAt i s n → k ≠ n) :
    t.memRead k = s.memRead k := by
  cases h with
  | write r v => exact memRead_congr (setReg_mem s r v) (setReg_params s r v) k
  | store n v hn => simp only [State.memRead, Memory.read_write_other s.mem n v (hk n hn)]
  | none | jump | writeAB | fault | exit | print => exact memRead_congr rfl rfl k

/-- Settles O43: the fetch leaves memory, and a store goes to its own address alone. -/
theorem onlyPokeChangesMemoryAndOnlyItsByte : Obligations.OnlyPokeChangesMemoryAndOnlyItsByte := by
  intro s t k hstep himm hreg
  obtain ⟨-, m, -, rfl⟩ | ⟨i, hi, hexec⟩ := step_currentInstr hstep
  · exact memRead_congr rfl rfl k
  · refine (exec_change hexec).memRead fun n hn => ?_
    cases hn with
    | literal r addr => exact himm r addr hi
    | pair r => exact hreg r hi

theorem Change.out {i : Instr} {s t : State} (h : Change i s t) :
    t.out = s.out ∨ i = .syscall ∧ (s.a = 1#8 ∨ s.a = 2#8) ∧ ∃ bs, t.out = s.out ++ bs := by
  cases h with
  | write r v => exact .inl (setReg_out s r v)
  | print bs hi ha => exact .inr ⟨hi, ha, bs, rfl⟩
  | none | jump | writeAB | store | fault | exit => exact .inl rfl

/-- Settles O44: the fetch leaves the console, and of all instructions the print calls alone write to it. -/
theorem consoleOnlyGrowsAndOnlyInPrintSyscalls : Obligations.ConsoleOnlyGrowsAndOnlyInPrintSyscalls := by
  intro s t hstep
  obtain ⟨-, k, -, rfl⟩ | ⟨i, hi, hexec⟩ := step_currentInstr hstep
  · exact ⟨⟨[], by simp⟩, fun hne => absurd rfl hne⟩
  · obtain hout | ⟨rfl, ha, bs, hout⟩ := (exec_change hexec).out
    · exact ⟨⟨[], by simp [hout]⟩, fun hne => absurd hout hne⟩
    · exact ⟨⟨bs, hout⟩, fun _ => ⟨hi, ha⟩⟩

/-- An instruction leaves the run state, or halts with `Ok` by the exit call, or with a cause of its own; halting is all
it then does. -/
theorem Change.run {i : Instr} {s t : State} (h : Change i s t) :
    t.run = s.run ∨ (i = .syscall ∧ s.a = 0#8 ∧ t = haltOk s) ∨ ∃ c, CauseOf i c ∧ t = raise c s := by
  cases h with
  | write r v => exact .inl (setReg_run s r v)
  | fault c hc => exact .inr (.inr ⟨c, hc, rfl⟩)
  | exit hi ha => exact .inr (.inl ⟨hi, ha, rfl⟩)
  | none | jump | writeAB | store | print => exact .inl rfl

/-- The fetch halts with a fault only, and of all instructions the exit call alone halts with `Ok`. -/
theorem exit_of_halted_ok {s t : State} (hstep : step s = .next t) (hok : t.run = .halted .ok) :
    currentInstr s = some .syscall ∧ s.a = 0#8 ∧ t = haltOk (s.advance 1) := by
  have hrun := step_next_running hstep
  obtain ⟨-, k, -, rfl⟩ | ⟨i, hi, hexec⟩ := step_currentInstr hstep
  · simp at hok
  · obtain hsame | ⟨rfl, ha, rfl⟩ | ⟨c, -, rfl⟩ := (exec_change hexec).run
    · simp [hsame, hrun] at hok
    · exact ⟨hi, ha, rfl⟩
    · simp at hok

/-- Settles O45: `exit_of_halted_ok`. -/
theorem haltedOkIsReachedOnlyByExit : Obligations.HaltedOkIsReachedOnlyByExit :=
  fun _ _ => exit_of_halted_ok

/-- Settles O46: the fault is that of the fetch, past the bytes there were, or that of the instruction, past all. -/
theorem faultingStepChangesOnlyPcAndRunState : Obligations.FaultingStepChangesOnlyPcAndRunState := by
  intro s t c hstep hfault
  have hrun := step_next_running hstep
  obtain ⟨hnone, k, hk, rfl⟩ | ⟨i, hi, hexec⟩ := step_currentInstr hstep
  · obtain rfl := cause_of_raise hfault
    exact ⟨k, rfl, by simp [hnone], fun _ => ⟨hk, rfl⟩⟩
  · obtain hsame | ⟨-, -, rfl⟩ | ⟨d, -, rfl⟩ := (exec_change hexec).run
    · simp [hsame, hrun] at hfault
    · simp at hfault
    · obtain rfl := cause_of_raise hfault
      exact ⟨(encode i).length, rfl, by simp [hi], by simp [hi]⟩

/-- Settles O47: the causes of each instruction, read as a list. -/
theorem eachInstructionRaisesOnlyItsOwnFaults : Obligations.EachInstructionRaisesOnlyItsOwnFaults := by
  intro i s t c hrun hexec hfault
  cases exec_causeOf hrun hexec hfault <;> simp

theorem Change.pc {i : Instr} {s t : State} (h : Change i s t) (hw : i.mayWrite .pc = false) : t.pc = s.pc := by
  cases h with
  | jump w hpc => rw [hw] at hpc; cases hpc
  | write r v hr => exact (writesOnly_setReg s r v).pcKept fun hpc => by rw [hpc, hw] at hr; cases hr
  | none | writeAB | store | fault | exit | print => rfl

/-- A write through selector 4 sets `pc` to the number of its byte (decision D3). -/
theorem setReg_pc_eq_ofNat (s : State) (v : Byte) : (s.setReg .pc v).pc = BitVec.ofNat 16 v.toNat :=
  (wordOfBytes_eq_ofNat 0#8 v).trans (by simp)

theorem setReg_pc_ofNat_sub (s : State) (v : Byte) :
    (s.setReg .pc (BitVec.ofNat 8 (255 - v.toNat))).pc = BitVec.ofNat 16 (255 - v.toNat) := by
  have hlt : 255 - v.toNat < 2 ^ 8 := by omega
  rw [setReg_pc_eq_ofNat, BitVec.toNat_ofNat, Nat.mod_eq_of_lt hlt]

/-- Settles O48: the branches and the writes through selector 4 by their results, every other row because it does not
list `pc`. -/
theorem pcAfterAStepWithoutFault : Obligations.PcAfterAStepWithoutFault := by
  intro s t i hstep hi _ after
  have hexec := exec_of_step hstep hi
  have hkept : i.mayWrite .pc = false → t.pc = after := (exec_change hexec).pc
  cases i with
  | bneImm addr => cases (exec_bneImm addr _).symm.trans hexec; rfl
  | beqImm addr => cases (exec_beqImm addr _).symm.trans hexec; rfl
  | jmpImm addr => cases (exec_jmpImm addr _).symm.trans hexec; rfl
  | bneReg => cases (exec_bneReg _ ▸ exec_bneImm _ _).symm.trans hexec; rfl
  | beqReg => cases (exec_beqReg _).symm.trans hexec; rfl
  | jmpReg => cases (exec_jmpReg _).symm.trans hexec; rfl
  | movImm rd imm =>
    cases rd with
    | pc => cases hexec; exact setReg_pc_eq_ofNat _ imm
    | _ => exact hkept rfl
  | movReg rd rs =>
    cases rd with
    | pc => cases hexec; exact setReg_pc_eq_ofNat _ _
    | _ => exact hkept rfl
  | notImm rd imm =>
    cases rd with
    | pc => cases (exec_notImm .pc imm _).symm.trans hexec; exact setReg_pc_ofNat_sub _ imm
    | _ => exact hkept rfl
  | notReg rd rs =>
    cases rd with
    | pc => cases (exec_notImm .pc _ _).symm.trans hexec; exact setReg_pc_ofNat_sub _ _
    | _ => exact hkept rfl
  | _ => exact hkept rfl

end Sys2Proof.Machine
end

section
/-! A store and the fetch after it (20_memory.md rule R51). Obligation O49. -/

namespace Sys2Proof.Machine

theorem exec_pokeImm_inside {s t : State} {r : Reg} {addr : Addr} (hin : addr.toNat < s.params.memSize)
    (h : exec (.pokeImm r addr) s = .next t) : t = { s with mem := Memory.write s.mem addr.toNat (s.getReg r) } := by
  obtain ⟨-, rfl⟩ | ⟨hout, -⟩ := storeByte_next h
  · rfl
  · exact absurd hin (Nat.not_lt.mpr hout)

/-- Settles O49: both modes store at the address; the fetch there reads the byte back, and the bytes of the instruction
that follows are the old ones with that byte replaced. -/
theorem storeIntoTheInstructionStreamIsFetchedNext : Obligations.StoreIntoTheInstructionStreamIsFetchedNext := by
  intro s t r addr hin hexec
  have himm : exec (.pokeImm r addr) s = .next t := by
    obtain h | ⟨rfl, h⟩ := hexec <;> exact h
  obtain rfl := exec_pokeImm_inside hin himm
  refine ⟨fetch8_got_iff.mpr ⟨hin, Memory.read_write_same .., rfl⟩, fun bs k i hrun hcode hk haddr hdec => ?_⟩
  obtain ⟨op, rest, hbs, hlen, -⟩ := decode_eq_ok_nil hdec
  have hset : (bs.set k (s.getReg r)).length = bs.length := List.length_set
  have hsize : bs.length ≤ 3 := by
    have := instrLength_le op
    rw [← hset, hbs, List.length_cons, ← hlen]
    exact this
  subst haddr
  rw [← hset]
  exact step_of_decode hrun hdec (codeAt_write_same bs k hcode hk (by omega))

end Sys2Proof.Machine
end

section
/-! Writes through different selectors, and the parts of the meanings before and after a register write that they do not
look at (10_state.md rule R24, the column "reads"). -/

namespace Sys2Proof.Machine

/-- A state is its registers, `pc`, memory, run state, console and parameters. -/
theorem State.ext_getReg {s t : State} (hreg : ∀ r, s.getReg r = t.getReg r) (hpc : s.pc = t.pc) (hmem : s.mem = t.mem)
    (hrun : s.run = t.run) (hout : s.out = t.out) (hparams : s.params = t.params) : s = t := by
  have ha : s.a = t.a := hreg .a
  have hb : s.b = t.b := hreg .b
  have hx : s.x = t.x := hreg .x
  have hy : s.y = t.y := hreg .y
  have hflg : s.flg = t.flg := hreg .flg
  have hhigh : highByte s.sp = highByte t.sp := hreg .spa
  have hlow : lowByte s.sp = lowByte t.sp := hreg .spb
  have hsp : s.sp = t.sp := by rw [← wordOfBytes_high_low s.sp, hhigh, hlow, wordOfBytes_high_low]
  cases s
  cases t
  simp_all

theorem setReg_comm (s : State) {q r : Reg} (v w : Byte) (h : q ≠ r) :
    (s.setReg q v).setReg r w = (s.setReg r w).setReg q v := by
  apply State.ext_getReg
  · intro k
    simp only [getReg_setReg]
    split <;> split <;> simp_all
  · simp only [pc_setReg]
    split <;> split <;> simp_all
  all_goals simp

theorem regAddr_setReg (s : State) {r : Reg} (v : Byte) (hx : .x ≠ r) (hy : .y ≠ r) : (s.setReg r v).regAddr = s.regAddr :=
  congrArg₂ wordOfBytes (getReg_setReg_other s v hx) (getReg_setReg_other s v hy)

theorem compareFlag_setReg (s : State) {r : Reg} (v : Byte) (h : .flg ≠ r) :
    (s.setReg r v).compareFlag = s.compareFlag :=
  congrArg (BitVec.getLsbD · 0) (getReg_setReg_other s v h)

theorem setReg_jump (s : State) {r : Reg} (v : Byte) (w : Addr) (h : r ≠ .pc) :
    { s.setReg r v with pc := w } = State.setReg { s with pc := w } r v := by
  cases r with
  | pc => exact absurd rfl h
  | _ => rfl

theorem setReg_raise (s : State) (r : Reg) (v : Byte) (c : Cause) :
    raise c (s.setReg r v) = (raise c s).setReg r v := by
  cases r <;> rfl

theorem setReg_haltOk (s : State) (r : Reg) (v : Byte) : haltOk (s.setReg r v) = (haltOk s).setReg r v := by
  cases r <;> rfl

theorem setReg_consoleWrite (s : State) (r : Reg) (v : Byte) (bs : List Byte) :
    consoleWrite bs (s.setReg r v) = (consoleWrite bs s).setReg r v := by
  cases r <;> rfl

theorem setReg_mem_write (s : State) (r : Reg) (v : Byte) (m : Memory) :
    { s.setReg r v with mem := m } = State.setReg { s with mem := m } r v := by
  cases r <;> rfl

theorem setReg_branchIf (s : State) {r : Reg} (v : Byte) (taken : Bool) (w : Addr) (h : r ≠ .pc) :
    branchIf taken w (s.setReg r v) = (branchIf taken w s).setReg r v := by
  cases taken
  · rfl
  · exact setReg_jump s v w h

theorem storeByte_setReg {ea : Addr} {w v : Byte} {s t : State} (r : Reg) (h : storeByte ea w s = .next t) :
    storeByte ea w (s.setReg r v) = .next (t.setReg r v) := by
  obtain ⟨hin, rfl⟩ | ⟨hout, rfl⟩ := storeByte_next h
  · have hw := memWrite_inside (s := s.setReg r v) (v := w) (by simpa using hin)
    simp only [storeByte, hw, setReg_mem, setReg_mem_write]
  · rw [storeByte_outside w (by simpa using hout), setReg_raise]

theorem resultToA_setReg {w v : Byte} (s : State) {r : Reg} (ha : .a ≠ r) :
    resultToA w (s.setReg r v) = .next (State.setReg { s with a := w } r v) :=
  congrArg _ (setReg_comm s w v ha).symm

theorem loadA_setReg {ea : Addr} {v : Byte} {s t : State} {r : Reg} (ha : .a ≠ r) (h : loadA ea s = .next t) :
    loadA ea (s.setReg r v) = .next (t.setReg r v) := by
  obtain ⟨hin, rfl⟩ | ⟨hout, rfl⟩ := loadA_next h
  · have hread := (memRead_congr (setReg_mem s r v) (setReg_params s r v) _).trans (memRead_inside hin)
    exact (loadA_of_memRead hread).trans (resultToA_setReg s ha)
  · rw [loadA_outside (by simpa using hout), setReg_raise]

theorem divide_setReg {x y v : Byte} {s t : State} {r : Reg} (ha : .a ≠ r) (hb : .b ≠ r) (h : divide x y s = .next t) :
    divide x y (s.setReg r v) = .next (t.setReg r v) := by
  obtain ⟨hne, rfl⟩ | ⟨rfl, rfl⟩ := divide_next h
  · have hcomm : ((s.setReg r v).setReg .a (aluDiv x y)).setReg .b (aluMod x y) =
        ((s.setReg .a (aluDiv x y)).setReg .b (aluMod x y)).setReg r v := by
      rw [setReg_comm _ _ v hb, setReg_comm s _ v ha]
    exact (if_neg hne).trans (congrArg _ hcomm)
  · rw [divide_zero, setReg_raise]

/-- The comparison keeps bits 7:1 of `FLG`, which the write left alone. -/
theorem compare_setReg (s : State) {r : Reg} (x y v : Byte) (hflg : .flg ≠ r) :
    compare x y (s.setReg r v) = (compare x y s).setReg r v := by
  have hsame : (s.setReg r v).flg = s.flg := getReg_setReg_other s v hflg
  calc compare x y (s.setReg r v) = (s.setReg r v).setReg .flg (compare x y (s.setReg r v)).flg := rfl
    _ = (s.setReg r v).setReg .flg (compare x y s).flg := by rw [compare_flg, compare_flg, hsame]
    _ = (compare x y s).setReg r v := (setReg_comm s _ v hflg).symm

theorem scanString_congr {s t : State} (hm : t.mem = s.mem) (hp : t.params = s.params) (n addr : Nat) :
    scanString t n addr = scanString s n addr := by
  induction n generalizing addr with
  | zero => rfl
  | succ n ih => simp only [scanString, memRead_congr hm hp, ih]

theorem printString_setReg (s : State) {r : Reg} (v : Byte) (hx : .x ≠ r) (hy : .y ≠ r) :
    printString (s.setReg r v) = (printString s).setReg r v := by
  have hscan : readString (s.setReg r v) (pairAddress (s.setReg r v)).toNat = readString s (pairAddress s).toNat := by
    rw [pairAddress, regAddr_setReg s v hx hy, readString, setReg_params]
    exact scanString_congr (setReg_mem s r v) (setReg_params s r v) _ _
  simp only [printString, hscan]
  cases readString s (pairAddress s).toNat with
  | error c => exact setReg_raise s r v c
  | ok bs => exact setReg_consoleWrite s r v bs

theorem printNumber_setReg (s : State) {r : Reg} (v : Byte) (hx : .x ≠ r) (hy : .y ≠ r) :
    printNumber (s.setReg r v) = (printNumber s).setReg r v := by
  have hread : (s.setReg r v).memRead (pairAddress (s.setReg r v)).toNat = s.memRead (pairAddress s).toNat := by
    rw [pairAddress, regAddr_setReg s v hx hy]
    exact memRead_congr (setReg_mem s r v) (setReg_params s r v) _
  simp only [printNumber, hread]
  cases s.memRead (pairAddress s).toNat with
  | error c => exact setReg_raise s r v c
  | ok w => exact setReg_consoleWrite s r v (decimal w)

theorem execSyscall_setReg {v : Byte} {s t : State} {r : Reg} (ha : .a ≠ r) (hx : .x ≠ r) (hy : .y ≠ r)
    (h : execSyscall s = .next t) : execSyscall (s.setReg r v) = .next (t.setReg r v) := by
  have hsame : (s.setReg r v).a = s.a := getReg_setReg_other s v ha
  obtain ⟨h0, rfl⟩ | ⟨h1, rfl⟩ | ⟨h2, rfl⟩ | ⟨h0, h1, h2, rfl⟩ := execSyscall_next h
  · exact (exec_syscall_exit (hsame.trans h0)).trans (congrArg _ (setReg_haltOk s r v))
  · exact (exec_syscall_printString (hsame.trans h1)).trans (congrArg _ (printString_setReg s v hx hy))
  · exact (exec_syscall_printNumber (hsame.trans h2)).trans (congrArg _ (printNumber_setReg s v hx hy))
  · refine (exec_syscall_unknown (by rw [hsame]; bv_omega)).trans (congrArg _ (setReg_raise s r v _))

end Sys2Proof.Machine
end

section
/-! Obligation O42: what an instruction does is made of parts that a register outside its row does not reach. -/

namespace Sys2Proof.Machine

/-- Each instruction reads its own operands, which the write before it left alone, and its effect and that write change
places. -/
theorem exec_setReg {i : Instr} {s t : State} {r : Reg} (v : Byte) (hpc : r ≠ .pc) (hread : i.mayRead r = false)
    (hwrite : i.mayWrite r = false) (h : exec i s = .next t) : exec i (s.setReg r v) = .next (t.setReg r v) := by
  have hin {q : Reg} (hq : i.mayRead q = true) : q ≠ r := by
    rintro rfl
    rw [hread] at hq
    cases hq
  have hout {q : Reg} (hq : i.mayWrite q = true) : q ≠ r := by
    rintro rfl
    rw [hwrite] at hq
    cases hq
  cases i with
  | invalid => cases h; exact congrArg _ (setReg_raise s r v .invalidOpcode)
  | bneImm | beqImm =>
    cases h
    simp only [exec, execBneImm, execBeqImm, compareFlag_setReg s v (hin rfl), setReg_branchIf s v _ _ hpc]
  | jmpImm => cases h; exact congrArg _ (setReg_branchIf s v _ _ hpc)
  | bneReg | beqReg =>
    cases h
    simp only [exec, execBneReg, execBeqReg, pairAddress, compareFlag_setReg s v (hin rfl),
      regAddr_setReg s v (hin rfl) (hin rfl), setReg_branchIf s v _ _ hpc]
  | jmpReg =>
    cases h
    simp only [exec, execJmpReg, pairAddress, regAddr_setReg s v (hin rfl) (hin rfl), setReg_branchIf s v _ _ hpc]
  | movImm rd | notImm rd => cases h; exact congrArg _ (setReg_comm s _ v (hout (decide_eq_true rfl))).symm
  | movReg rd rs | notReg rd rs =>
    cases h
    have hrs : rs ≠ r := hin (decide_eq_true rfl)
    simp only [exec, execMovReg, execNotReg, registerOperand, getReg_setReg_other s v hrs,
      setReg_comm s _ v (hout (decide_eq_true rfl))]
  | cmpImm rs =>
    cases h
    have hrs : rs ≠ r := hin (decide_eq_true rfl)
    simp only [exec, execCmpImm, getReg_setReg_other s v hrs, compare_setReg s _ _ v (hout rfl)]
  | cmpReg rs rt =>
    cases h
    have hrs : rs ≠ r := hin (by simp [Instr.mayRead])
    have hrt : rt ≠ r := hin (by simp [Instr.mayRead])
    simp only [exec, execCmpReg, registerOperand, getReg_setReg_other s v hrs, getReg_setReg_other s v hrt,
      compare_setReg s _ _ v (hout rfl)]
  | pokeImm rs =>
    have hrs : rs ≠ r := hin (decide_eq_true rfl)
    rw [exec_pokeImm, getReg_setReg_other s v hrs]
    exact storeByte_setReg r h
  | pokeReg rs =>
    have hrs : rs ≠ r := hin (by simp [Instr.mayRead])
    have hx : .x ≠ r := hin (by simp [Instr.mayRead])
    have hy : .y ≠ r := hin (by simp [Instr.mayRead])
    rw [exec_pokeReg, exec_pokeImm, getReg_setReg_other s v hrs, regAddr_setReg s v hx hy]
    exact storeByte_setReg r h
  | peekImm => exact loadA_setReg (hout rfl) h
  | peekReg =>
    rw [exec_peekReg, exec_peekImm, regAddr_setReg s v (hin rfl) (hin rfl)]
    exact loadA_setReg (hout rfl) h
  | syscall => exact execSyscall_setReg (hin rfl) (hin rfl) (hin rfl) h
  | divImm rs imm =>
    have hrs : rs ≠ r := hin (decide_eq_true rfl)
    simp only [exec, execDivImm, getReg_setReg_other s v hrs]
    exact divide_setReg (hout rfl) (hout rfl) h
  | divReg rs rt =>
    have hrs : rs ≠ r := hin (by simp [Instr.mayRead])
    have hrt : rt ≠ r := hin (by simp [Instr.mayRead])
    simp only [exec, execDivReg, registerOperand, getReg_setReg_other s v hrs, getReg_setReg_other s v hrt]
    exact divide_setReg (hout rfl) (hout rfl) h
  | addImm rs | subImm rs | mulImm rs | andImm rs | orImm rs | xorImm rs =>
    cases h
    have hrs : rs ≠ r := hin (decide_eq_true rfl)
    simp only [exec, execAddImm, execSubImm, execMulImm, execAndImm, execOrImm, execXorImm,
      getReg_setReg_other s v hrs, resultToA_setReg s (hout rfl)]
  | addReg rs rt | subReg rs rt | mulReg rs rt | andReg rs rt | orReg rs rt | xorReg rs rt =>
    cases h
    have hrs : rs ≠ r := hin (by simp [Instr.mayRead])
    have hrt : rt ≠ r := hin (by simp [Instr.mayRead])
    simp only [exec, execAddReg, execSubReg, execMulReg, execAndReg, execOrReg, execXorReg, registerOperand,
      getReg_setReg_other s v hrs, getReg_setReg_other s v hrt, resultToA_setReg s (hout rfl)]

/-- Settles O42: `exec_setReg`. -/
theorem registersOutsideItsRowDoNotInfluenceAnInstruction :
    Obligations.RegistersOutsideItsRowDoNotInfluenceAnInstruction :=
  fun _ _ _ _ v => exec_setReg v

end Sys2Proof.Machine
end

section
/-! Copies of bytes into memory, and what reads after them return (70_reset_and_hazards.md rule R149). -/

namespace Sys2Proof.Machine

theorem Memory.read_writeBytes_other (m : Memory) {n k : Nat} (vs : List Byte) (h : k < n ∨ n + vs.length ≤ k) :
    Memory.read (Memory.writeBytes m n vs) k = Memory.read m k := by
  induction vs generalizing m n with
  | nil => rfl
  | cons v vs ih =>
    rw [List.length_cons] at h
    rw [Memory.writeBytes, ih _ (by omega), Memory.read_write_other m n v (by omega)]

theorem Memory.read_writeBytes_at (m : Memory) (n : Nat) (vs : List Byte) (k : Nat) (h : k < vs.length) :
    Memory.read (Memory.writeBytes m n vs) (n + k) = vs[k] := by
  induction vs generalizing m n k with
  | nil => exact absurd h (Nat.not_lt_zero k)
  | cons v vs ih =>
    rw [Memory.writeBytes]
    cases k with
    | zero => exact (Memory.read_writeBytes_other _ vs (by omega)).trans (Memory.read_write_same m n v)
    | succ k =>
      rw [← Nat.add_assoc, Nat.add_right_comm]
      exact ih _ _ k (Nat.lt_of_succ_lt_succ h)

end Sys2Proof.Machine
end

section
/-! `create`, `load` and the order of the host's operations (70_reset_and_hazards.md rules R147 to R155). Obligations O51
to O53. -/

namespace Sys2Proof.Machine

theorem params_wf_iff {p : Params} : p.wf = true ↔ 1 ≤ p.memSize ∧ p.memSize ≤ 65536 := by
  simp [Params.wf]

theorem create_of_wf {p : Params} (h : p.wf = true) : create p = .ok (State.initial p) :=
  if_pos h

/-- Settles O51: in range, the new machine's memory has no entry and so reads 0; out of range, the check refuses. -/
theorem createGivesTheResetStateOfItsParameters : Obligations.CreateGivesTheResetStateOfItsParameters := by
  refine ⟨fun p hp => ⟨_, create_of_wf (params_wf_iff.mpr hp), rfl, fun k hk => ?_, ?_⟩, fun p hp => ?_, rfl⟩
  · exact memRead_inside hk
  · simp
  · exact if_neg (by rw [params_wf_iff]; omega)

theorem load_fits {image : List Byte} {s : State} (h : image.length ≤ s.params.memSize) :
    load image s = .ok { s with mem := Memory.writeBytes s.mem 0 image } :=
  if_pos (decide_eq_true h)

theorem load_too_long {image : List Byte} {s : State} (h : s.params.memSize < image.length) :
    load image s = .error .loadError :=
  if_neg (by simpa [Params.imageFits] using h)

/-- Settles O52: the length check, then the copy read back inside the image and past it. -/
theorem loadCopiesTheImageToAddressZero : Obligations.LoadCopiesTheImageToAddressZero := by
  refine fun s image => ⟨fun hfit => ⟨_, load_fits hfit, rfl, fun k hk => ?_, fun k hk => ?_⟩, load_too_long⟩
  · have hread := Memory.read_writeBytes_at s.mem 0 image k hk
    rw [Nat.zero_add] at hread
    exact memRead_ok_iff.mpr ⟨Nat.lt_of_lt_of_le hk hfit, hread⟩
  · have hread : Memory.read (Memory.writeBytes s.mem 0 image) k = Memory.read s.mem k :=
      Memory.read_writeBytes_other s.mem image (.inr (by rwa [Nat.zero_add]))
    simp only [State.memRead, hread]

theorem runFor_of_halted {s : State} {o : RunOutcome} (n : Nat) (h : s.run = .halted o) : runFor n s = .finished o s := by
  unfold runFor
  rw [h]

theorem session_load_outOfOrder {h : Session} (image : List Byte) (hphase : h.phase ≠ .created) :
    h.load image = .error .outOfOrder := by
  unfold Session.load
  split
  · next hcreated => exact absurd hcreated hphase
  all_goals rfl

theorem session_load_too_long {h : Session} {image : List Byte} (hphase : h.phase = .created)
    (hlong : h.machine.params.memSize < image.length) :
    h.load image = .ok { phase := .loadFailed .loadError, machine := h.machine } := by
  simp only [Session.load, hphase, load_too_long hlong]

theorem session_run_of_halted {h : Session} {o : RunOutcome} (budget : Nat) (hphase : ∀ c, h.phase ≠ .loadFailed c)
    (hhalt : h.machine.run = .halted o) :
    h.run budget = .ok (.finished o h.machine, { phase := .ran, machine := h.machine }) := by
  unfold Session.run
  split
  · next c hfailed => exact absurd hfailed (hphase c)
  all_goals simp only [runFor_of_halted budget hhalt]

/-- Settles O53: one rule per operation and phase. -/
theorem hostOperationsOutOfOrderAreRefused : Obligations.HostOperationsOutOfOrderAreRefused :=
  fun _ image budget => ⟨session_load_outOfOrder image, fun hphase hlong => ⟨session_load_too_long hphase hlong, rfl⟩,
    fun _ => session_run_of_halted budget⟩

end Sys2Proof.Machine
end

section
/-! The run loop (70_reset_and_hazards.md rules R152, R154, R161): one equation per case, then its end by induction on the
budget. Obligations O54 and O55. -/

namespace Sys2Proof.Machine

theorem runFor_zero {s : State} (h : s.run = .running) : runFor 0 s = .budgetSpent s := by
  unfold runFor
  rw [h]

theorem runFor_succ {s t : State} (n : Nat) (hstep : step s = .next t) : runFor (n + 1) s = runFor n t := by
  rw [runFor, step_next_running hstep]
  simp only [hstep]

/-- A state is halted, or it runs and takes a step. -/
theorem halted_or_steps (s : State) : (∃ o, s.run = .halted o) ∨ (s.run = .running ∧ ∃ t, step s = .next t) := by
  cases hrun : s.run with
  | halted o => exact .inl ⟨o, rfl⟩
  | running => exact .inr ⟨rfl, step_total hrun⟩

theorem runFor_ne_stuck (n : Nat) (s u : State) : runFor n s ≠ .stuck u := by
  induction n generalizing s with
  | zero =>
    obtain ⟨o, hhalt⟩ | ⟨hrun, -⟩ := halted_or_steps s
    · simp [runFor_of_halted 0 hhalt]
    · simp [runFor_zero hrun]
  | succ n ih =>
    obtain ⟨o, hhalt⟩ | ⟨-, t, hstep⟩ := halted_or_steps s
    · simp [runFor_of_halted (n + 1) hhalt]
    · rw [runFor_succ n hstep]
      exact ih t

/-- A run that ends was halted from the start, or took a step and ended with one less in its budget. -/
theorem runFor_finished {n : Nat} {s t : State} {o : RunOutcome} (h : runFor n s = .finished o t) :
    (s.run = .halted o ∧ t = s) ∨ ∃ m u, n = m + 1 ∧ step s = .next u ∧ runFor m u = .finished o t := by
  obtain ⟨p, hhalt⟩ | ⟨hrun, u, hstep⟩ := halted_or_steps s
  · rw [runFor_of_halted n hhalt] at h
    obtain ⟨rfl, rfl⟩ := RunResult.finished.inj h
    exact .inl ⟨hhalt, rfl⟩
  · cases n with
    | zero => rw [runFor_zero hrun] at h; cases h
    | succ m => exact .inr ⟨m, u, rfl, hstep, runFor_succ m hstep ▸ h⟩

theorem Reaches.of_step {s t u : State} (hstep : Machine.step s = .next t) (h : Reaches t u) : Reaches s u :=
  h.induct (.step .start hstep) fun _ _ => .step

theorem runFor_finished_mono {n m : Nat} {s t : State} {o : RunOutcome} (hnm : n ≤ m)
    (h : runFor n s = .finished o t) : runFor m s = .finished o t ∧ t.run = .halted o ∧ Reaches s t := by
  induction n generalizing m s with
  | zero =>
    obtain ⟨hhalt, rfl⟩ | ⟨k, u, hk, -⟩ := runFor_finished h
    · exact ⟨runFor_of_halted m hhalt, hhalt, .start⟩
    · cases hk
  | succ n ih =>
    obtain ⟨hhalt, rfl⟩ | ⟨k, u, hk, hstep, hrest⟩ := runFor_finished h
    · exact ⟨runFor_of_halted m hhalt, hhalt, .start⟩
    · cases hk
      obtain ⟨j, rfl⟩ := Nat.exists_eq_add_of_le' (Nat.le_trans (Nat.succ_pos n) hnm)
      obtain ⟨hfin, hhalt, hreach⟩ := ih (Nat.le_of_succ_le_succ hnm) hrest
      exact ⟨(runFor_succ j hstep).trans hfin, hhalt, hreach.of_step hstep⟩

/-- Settles O54: both halves by induction on the budget. -/
theorem runOutcomeDoesNotDependOnTheBudget : Obligations.RunOutcomeDoesNotDependOnTheBudget :=
  ⟨runFor_ne_stuck, fun _ _ _ _ _ => runFor_finished_mono⟩

/-- A run from a running state that ends has a last step, into the final state. -/
theorem runFor_last_step {n : Nat} {s t : State} {o : RunOutcome} (hrun : s.run = .running)
    (h : runFor n s = .finished o t) : ∃ u, Reaches s u ∧ step u = .next t := by
  induction n generalizing s with
  | zero => rw [runFor_zero hrun] at h; cases h
  | succ n ih =>
    obtain ⟨hhalt, -⟩ | ⟨k, v, hk, hstep, hrest⟩ := runFor_finished h
    · rw [hrun] at hhalt; cases hhalt
    · cases hk
      obtain ⟨p, hhalt⟩ | ⟨hrun', -⟩ := halted_or_steps v
      · rw [runFor_of_halted n hhalt] at hrest
        cases hrest
        exact ⟨s, .start, hstep⟩
      · obtain ⟨u, hreach, hlast⟩ := ih hrun' hrest
        exact ⟨u, hreach.of_step hstep, hlast⟩

/-- Settles O55: the last step is into `Halted(Ok)`, so it is the exit call, which `A = 0` makes and keeps. -/
theorem resultAfterAnOkRunIsZero : Obligations.ResultAfterAnOkRunIsZero := by
  intro n s t hrun hfin
  obtain ⟨u, hreach, hlast⟩ := runFor_last_step hrun hfin
  obtain ⟨-, hok, -⟩ := runFor_finished_mono (Nat.le_refl n) hfin
  obtain ⟨hcall, ha, rfl⟩ := exit_of_halted_ok hlast hok
  exact ⟨ha, u, hreach, hlast, hcall⟩

end Sys2Proof.Machine
end

section
/-! The bytes that no handler looks at do not change what is decoded, and the longest instruction's bytes placed at `pc`
are fetched as far as the instruction is long (30_encoding.md rules R63, R67). Obligation O57. -/

namespace Sys2Proof

theorem encode_injective {i j : Instr} (h : encode i = encode j) : i = j := by
  have hi := decode_encode i []
  rw [h, decode_encode j []] at hi
  exact (Prod.mk.inj (Except.ok.inj hi)).1.symm

/-- The word with the bytes past the instruction's length left out. -/
theorem clearIgnored_take (op b1 b2 : Byte) :
    clearIgnored op (([b1, b2].take (instrLength op - 1)).getD 0 0#8) (([b1, b2].take (instrLength op - 1)).getD 1 0#8) =
      clearIgnored op b1 b2 := by
  unfold clearIgnored instrLength
  dsimp only
  cases formatOf (familyCode op) <;> rfl

/-- Both words have one encoding, which one instruction alone has. -/
theorem decodeWord_take (op b1 b2 : Byte) :
    decodeWord op (([b1, b2].take (instrLength op - 1)).getD 0 0#8) (([b1, b2].take (instrLength op - 1)).getD 1 0#8) =
      decodeWord op b1 b2 :=
  encode_injective (by rw [encode_decodeWord, encode_decodeWord, clearIgnored_take])

theorem decode_three_ok {op b1 b2 : Byte} {p : Instr × List Byte} (h : decode [op, b1, b2] = .ok p) :
    p.1 = decodeWord op b1 b2 := by
  rw [decode_cons op [b1, b2] (instrLength_le op)] at h
  rw [← Except.ok.inj h]
  rfl

theorem decodeTableWord_some {nbits w : Nat} {i : Instr} (h : decodeTableWord nbits w = some i) :
    ∃ op b1 b2, tableWordBytes nbits w = [op, b1, b2] ∧ i = decodeWord op b1 b2 := by
  refine ⟨_, _, _, rfl, ?_⟩
  unfold decodeTableWord at h
  split at h
  · next j rest hdec =>
    obtain rfl := Option.some.inj h
    exact decode_three_ok hdec
  · cases h

end Sys2Proof

namespace Sys2Proof.Machine

theorem toNat_add_one {p : Addr} (h : p.toNat + 1 < 65536) : (p + 1).toNat = p.toNat + 1 := by
  rw [BitVec.toNat_add, show (1 : Addr).toNat = 1 from rfl]
  omega

/-- Bytes that fit between an address and the end of memory are copied there. -/
theorem putCode_eq_writeBytes {s : State} {p : Addr} (vs : List Byte) (hfit : p.toNat + vs.length ≤ s.params.memSize)
    (hsize : s.params.memSize ≤ 65536) : putCode s p vs = { s with mem := Memory.writeBytes s.mem p.toNat vs } := by
  induction vs generalizing s p with
  | nil => rfl
  | cons v vs ih =>
    rw [List.length_cons] at hfit
    have hw := memWrite_inside (s := s) (n := p.toNat) (v := v) (by omega)
    simp only [putCode, hw]
    cases vs with
    | nil => rfl
    | cons w ws =>
      rw [List.length_cons] at hfit
      have hnext : (p + 1).toNat = p.toNat + 1 := toNat_add_one (by omega)
      have hfit' : (p + 1).toNat + (w :: ws).length ≤ s.params.memSize := by rw [hnext, List.length_cons]; omega
      have hrest := ih (s := { s with mem := Memory.write s.mem p.toNat v }) hfit' hsize
      rw [hnext] at hrest
      exact hrest

/-- Bytes copied between an address and the end of memory stand there as code. -/
theorem codeAt_of_read {s : State} {p : Addr} (vs : List Byte) (hfit : p.toNat + vs.length ≤ s.params.memSize)
    (hsize : s.params.memSize ≤ 65536) (hread : ∀ (k : Nat) (h : k < vs.length), Memory.read s.mem (p.toNat + k) = vs[k]) :
    codeAt s p vs = true := by
  induction vs generalizing p with
  | nil => rfl
  | cons v vs ih =>
    rw [List.length_cons] at hfit
    refine codeAt_cons.mpr ⟨by omega, hread 0 (Nat.zero_lt_succ _), ?_⟩
    cases vs with
    | nil => rfl
    | cons w ws =>
      rw [List.length_cons] at hfit
      have hnext : (p + 1).toNat = p.toNat + 1 := toNat_add_one (by omega)
      refine ih (by rw [hnext, List.length_cons]; omega) fun k hk => ?_
      rw [hnext, Nat.add_assoc, Nat.add_comm 1]
      exact hread (k + 1) (Nat.succ_lt_succ hk)

theorem codeAt_take {s : State} {p : Addr} {vs : List Byte} (n : Nat) (h : codeAt s p vs = true) :
    codeAt s p (vs.take n) = true := by
  induction vs generalizing p n with
  | nil => rw [List.take_nil]; rfl
  | cons v vs ih =>
    obtain ⟨hin, hv, hvs⟩ := codeAt_cons.mp h
    cases n with
    | zero => rfl
    | succ n => exact codeAt_cons.mpr ⟨hin, hv, ih n hvs⟩

/-- Three bytes at `pc` are enough for any instruction; the step runs the one they decode to, past its own length. -/
theorem step_of_three_bytes {s : State} {op b1 b2 : Byte} (hrun : s.run = .running)
    (hcode : codeAt s s.pc [op, b1, b2] = true) :
    step s = exec (decodeWord op b1 b2) (s.advance (encode (decodeWord op b1 b2)).length) := by
  have hpos := instrLength_pos op
  have hle := instrLength_le op
  have hcode' : codeAt s s.pc (op :: [b1, b2].take (instrLength op - 1)) = true := by
    obtain ⟨hin, hop, hrest⟩ := codeAt_cons.mp hcode
    exact codeAt_cons.mpr ⟨hin, hop, codeAt_take _ hrest⟩
  have hlen : instrLength op = ([b1, b2].take (instrLength op - 1)).length + 1 := by
    simp only [List.length_take, List.length_cons, List.length_nil]
    omega
  rw [step_of_codeAt hrun hcode' hlen (decodeWord_take op b1 b2), ← hlen, encode_decodeWord_length]

/-- Settles O57: the word's bytes are copied to `pc` and stand there as code. -/
theorem fetchWordIsRunByTheNextStep : Obligations.FetchWordIsRunByTheNextStep := by
  intro s nbits w i hrun hfit hsize hdec
  obtain ⟨op, b1, b2, hbytes, rfl⟩ := decodeTableWord_some hdec
  have hput : s.withFetchWord nbits w = { s with mem := Memory.writeBytes s.mem s.pc.toNat [op, b1, b2] } := by
    rw [State.withFetchWord, hbytes]
    exact putCode_eq_writeBytes [op, b1, b2] hfit hsize
  rw [hput]
  exact ⟨rfl, step_of_three_bytes hrun (codeAt_of_read [op, b1, b2] hfit hsize (Memory.read_writeBytes_at _ _ _))⟩

end Sys2Proof.Machine
end
